-- ==== Sys2Proof/Word.lean ====
section
/-! DEFINITION. The word types of the machine: bytes, 16-bit words, the fields of an instruction word
and register numbers (spec 00_scope.md R7, R8; 30_encoding.md R71). All values are unsigned. -/

namespace Sys2Proof

/-- An 8-bit value: a general register, a timer, a byte of memory (R20). -/
abbrev Byte := BitVec 8

/-- A 16-bit value: `I`, `pc`, a stack entry, an instruction word (R20, R70). -/
abbrev Word := BitVec 16

/-- A 4-bit field of an instruction word (R71). -/
abbrev Nibble := BitVec 4

/-- The 12-bit address field `nnn` of an instruction word (R71). -/
abbrev Addr12 := BitVec 12

/-- The number of a general register, 0 to 15 (R21). -/
abbrev RegIdx := Fin 16

/-- The number of `VF`, the register that doubles as the flag (R22). -/
abbrev flagReg : RegIdx := 15

end Sys2Proof
end

