-- ==== Sys2Proof/Config.lean ====
section
/-! DEFINITION. The four parameters of the spec (00_scope.md R6, second table) with their defaults, and
the one free value of the machine, the random byte of `STEP` (R12, 42_alu.md R122). The fixed names of the
model (`decodeTableWord`, `exec`, `step`, `State.reset`) use `Config.default`; each has a version that takes
the configuration as an argument (log entry 2). -/

namespace Sys2Proof

/-- `SHL_FLAG_BIT`: which bit of the old `V[x]` shift-left copies into `VF`, 0 or 7 (R6, R121). -/
inductive ShlFlagBit where
  | low
  | high
  deriving DecidableEq, Repr

/-- The bit number the setting stands for. -/
def ShlFlagBit.index : ShlFlagBit → Nat
  | .low => 0
  | .high => 7

/-- One built-in sprite, 5 bytes (R6 "glyph stride"). -/
abbrev Glyph := Vector Byte 5

/-- `FONT`: the 16 glyphs, the glyph of digit `d` at address `d * 5` (20_memory.md R52). -/
abbrev Font := Vector Glyph 16

/-- `FAULT_CODES`: the numbers of the six fault causes (60_exceptions.md R151). -/
structure FaultCodes where
  fetchOutOfBounds : Nat
  decodeFailure : Nat
  memoryOutOfBounds : Nat
  stackOverflow : Nat
  stackUnderflow : Nat
  keyIndexOutOfRange : Nat
  deriving DecidableEq, Repr

/-- The parameters a model takes as configuration arguments (R6). -/
structure Config where
  /-- `SHL_SUBOP`: the sub-opcode of shift-left in family 8 (R77). -/
  shlSubop : Nibble
  /-- `SHL_FLAG_BIT` (R121). -/
  shlFlagBit : ShlFlagBit
  /-- `FONT` (R52). -/
  font : Font
  /-- `FAULT_CODES` (R151). -/
  faultCodes : FaultCodes
  deriving DecidableEq, Repr

/-- The default `FONT`, the table of 20_memory.md R52. PRESUMED (the family's): the source gives no font
byte (log entry 4). -/
def Config.defaultFont : Font :=
  #v[#v[0xF0, 0x90, 0x90, 0x90, 0xF0], #v[0x20, 0x60, 0x20, 0x20, 0x70],
     #v[0xF0, 0x10, 0xF0, 0x80, 0xF0], #v[0xF0, 0x10, 0xF0, 0x10, 0xF0],
     #v[0x90, 0x90, 0xF0, 0x10, 0x10], #v[0xF0, 0x80, 0xF0, 0x10, 0xF0],
     #v[0xF0, 0x80, 0xF0, 0x90, 0xF0], #v[0xF0, 0x10, 0x20, 0x40, 0x40],
     #v[0xF0, 0x90, 0xF0, 0x90, 0xF0], #v[0xF0, 0x90, 0xF0, 0x10, 0xF0],
     #v[0xF0, 0x90, 0xF0, 0x90, 0x90], #v[0xE0, 0x90, 0xE0, 0x90, 0xE0],
     #v[0xF0, 0x80, 0x80, 0x80, 0xF0], #v[0xE0, 0x90, 0x90, 0x90, 0xE0],
     #v[0xF0, 0x80, 0xF0, 0x80, 0xF0], #v[0xF0, 0x80, 0xF0, 0x80, 0x80]]

/-- The default `FAULT_CODES`, the first column of the table of 60_exceptions.md R151. -/
def Config.defaultFaultCodes : FaultCodes where
  fetchOutOfBounds := 1
  decodeFailure := 2
  memoryOutOfBounds := 3
  stackOverflow := 4
  stackUnderflow := 5
  keyIndexOutOfRange := 6

/-- The defaults of R6: shift-left at sub-opcode 8, its flag the low bit. DESIGN CHOICE of the spec where
the source is silent or doubtful (log entry 2). -/
def Config.default : Config where
  shlSubop := 0x8
  shlFlagBit := .low
  font := Config.defaultFont
  faultCodes := Config.defaultFaultCodes

/-- FREE VALUE. The random byte used by the `k`-th random-and-mask instruction to run: "a free 8-bit input
that only random-and-mask looks at" (41_flow.md R100), with no law (42_alu.md R122). It has no body, so no
proof can know a value of it (log entry 1). -/
opaque Config.rndByte : Nat → Byte

end Sys2Proof
end

