-- ==== Sys2Proof/Syntax.lean ====
section
/-! DEFINITION. The instructions, one constructor per row of spec/opcode_table.json in the table's order
(30_encoding.md R75, R85). Operands are the fields the instruction uses (R71): register numbers `x`, `y`,
the immediate byte `kk`, the address `nnn`, the row count `n`. A nibble that is not examined (R80) is no
operand and is not held. -/

namespace Sys2Proof

inductive Instr where
  | cls
  | ret
  | jp (nnn : Addr12)
  | call (nnn : Addr12)
  | seVxKk (x : RegIdx) (kk : Byte)
  | sneVxKk (x : RegIdx) (kk : Byte)
  | seVxVy (x y : RegIdx)
  | ldVxKk (x : RegIdx) (kk : Byte)
  | addVxKk (x : RegIdx) (kk : Byte)
  | ldVxVy (x y : RegIdx)
  | orVxVy (x y : RegIdx)
  | andVxVy (x y : RegIdx)
  | xorVxVy (x y : RegIdx)
  | addVxVy (x y : RegIdx)
  | subVxVy (x y : RegIdx)
  | shrVx (x : RegIdx)
  | subnVxVy (x y : RegIdx)
  | shlVx (x : RegIdx)
  | sneVxVy (x y : RegIdx)
  | ldINnn (nnn : Addr12)
  | jpV0Nnn (nnn : Addr12)
  | rndVxKk (x : RegIdx) (kk : Byte)
  | drwVxVyN (x y : RegIdx) (n : Nibble)
  | skpVx (x : RegIdx)
  | sknpVx (x : RegIdx)
  | ldVxDt (x : RegIdx)
  | ldVxK (x : RegIdx)
  | ldDtVx (x : RegIdx)
  | ldStVx (x : RegIdx)
  | addIVx (x : RegIdx)
  | ldFVx (x : RegIdx)
  | ldBVx (x : RegIdx)
  | ldMemVx (x : RegIdx)
  | ldVxMem (x : RegIdx)
  deriving DecidableEq, Repr

end Sys2Proof
end

