-- ==== Sys2Proof/Decode.lean ====
section
/-! DEFINITION. The decoder, total on all 65536 words and rejecting by name (30_encoding.md R74, R76 to
R81), the encoder (R72, R75, R84), and the opcode map as rows of match and mask (R75). Opcode numbers
outside family 8 are the standard ones, PRESUMED in the source and adopted by the spec (D1, log entry 3). -/

namespace Sys2Proof

/-- Why a word is illegal: the four classes of 30_encoding.md R81. -/
inductive Reject where
  /-- A word 0x0000 to 0x0FFF other than 0x00E0 and 0x00EE (R76). -/
  | family0
  /-- A family 8 word whose sub-opcode is not one of the nine (R77). -/
  | family8
  /-- A family 0xE word whose `kk` is neither 0x9E nor 0xA1 (R78). -/
  | familyE
  /-- A family 0xF word whose `kk` is none of the nine (R79). -/
  | familyF
  deriving DecidableEq, Repr

/-! ### Fields (R71) -/

/-- `op = w[15:12]`. -/
def fieldOp (w : Word) : Nibble := w.extractLsb' 12 4
/-- `x = w[11:8]`. -/
def fieldX (w : Word) : Nibble := w.extractLsb' 8 4
/-- `y = w[7:4]`. -/
def fieldY (w : Word) : Nibble := w.extractLsb' 4 4
/-- `n = w[3:0]`. -/
def fieldN (w : Word) : Nibble := w.extractLsb' 0 4
/-- `kk = w[7:0]`. -/
def fieldKk (w : Word) : Byte := w.extractLsb' 0 8
/-- `nnn = w[11:0]`. -/
def fieldNnn (w : Word) : Addr12 := w.extractLsb' 0 12

/-- The register a 4-bit field names (R21). -/
def regOf (f : Nibble) : RegIdx := ⟨f.toNat, f.isLt⟩

/-- The 4-bit field that names a register (R21). -/
def nibbleOf (x : RegIdx) : Nibble := BitVec.ofFin x

/-! ### The decoder (R74) -/

/-- Family 0, decoded on the whole word (R76). -/
def decodeFamily0 (w : Word) : Except Reject Instr :=
  if w = 0x00E0 then .ok .cls
  else if w = 0x00EE then .ok .ret
  else .error .family0

/-- Family 8, decoded on `n`; shift-left at the configured sub-opcode (R77). -/
def decodeFamily8 (c : Config) (x y : RegIdx) (n : Nibble) : Except Reject Instr :=
  if n = 0x0 then .ok (.ldVxVy x y)
  else if n = 0x1 then .ok (.orVxVy x y)
  else if n = 0x2 then .ok (.andVxVy x y)
  else if n = 0x3 then .ok (.xorVxVy x y)
  else if n = 0x4 then .ok (.addVxVy x y)
  else if n = 0x5 then .ok (.subVxVy x y)
  else if n = 0x6 then .ok (.shrVx x)
  else if n = 0x7 then .ok (.subnVxVy x y)
  else if n = c.shlSubop then .ok (.shlVx x)
  else .error .family8

/-- Family 0xE, decoded on `kk` (R78). -/
def decodeFamilyE (x : RegIdx) (kk : Byte) : Except Reject Instr :=
  if kk = 0x9E then .ok (.skpVx x)
  else if kk = 0xA1 then .ok (.sknpVx x)
  else .error .familyE

/-- Family 0xF, decoded on `kk` (R79). -/
def decodeFamilyF (x : RegIdx) (kk : Byte) : Except Reject Instr :=
  if kk = 0x07 then .ok (.ldVxDt x)
  else if kk = 0x0A then .ok (.ldVxK x)
  else if kk = 0x15 then .ok (.ldDtVx x)
  else if kk = 0x18 then .ok (.ldStVx x)
  else if kk = 0x1E then .ok (.addIVx x)
  else if kk = 0x29 then .ok (.ldFVx x)
  else if kk = 0x33 then .ok (.ldBVx x)
  else if kk = 0x55 then .ok (.ldMemVx x)
  else if kk = 0x65 then .ok (.ldVxMem x)
  else .error .familyF

/-- `Decode(w)` of R74: the family selector picks the handler, four families have a second selector. In
families 5 and 9 the field `n` is not examined (R80). -/
def decodeWord (c : Config) (w : Word) : Except Reject Instr :=
  let op := fieldOp w
  let x := regOf (fieldX w)
  let y := regOf (fieldY w)
  let kk := fieldKk w
  let nnn := fieldNnn w
  if op = 0x0 then decodeFamily0 w
  else if op = 0x1 then .ok (.jp nnn)
  else if op = 0x2 then .ok (.call nnn)
  else if op = 0x3 then .ok (.seVxKk x kk)
  else if op = 0x4 then .ok (.sneVxKk x kk)
  else if op = 0x5 then .ok (.seVxVy x y)
  else if op = 0x6 then .ok (.ldVxKk x kk)
  else if op = 0x7 then .ok (.addVxKk x kk)
  else if op = 0x8 then decodeFamily8 c x y (fieldN w)
  else if op = 0x9 then .ok (.sneVxVy x y)
  else if op = 0xA then .ok (.ldINnn nnn)
  else if op = 0xB then .ok (.jpV0Nnn nnn)
  else if op = 0xC then .ok (.rndVxKk x kk)
  else if op = 0xD then .ok (.drwVxVyN x y (fieldN w))
  else if op = 0xE then decodeFamilyE x kk
  else decodeFamilyF x kk

/-- The instruction word of two bytes, the one at the lower address first: big-endian (20_memory.md R54). -/
def wordOfBytes (hi lo : Byte) : Word := hi ++ lo

/-- The high byte of a word, stored at the lower address (R54). -/
def highByte (w : Word) : Byte := w.extractLsb' 8 8

/-- The low byte of a word, stored at the higher address (R54). -/
def lowByte (w : Word) : Byte := w.extractLsb' 0 8

/-- Decoding a stream of bytes: the instruction and the rest of the stream; `none` where fewer than two
bytes are left (R70). -/
def decodeBytes (c : Config) : List Byte → Option (Except Reject Instr × List Byte)
  | hi :: lo :: rest => some (decodeWord c (wordOfBytes hi lo), rest)
  | _ => none

/-- The word of an instruction numbered as the opcode table numbers it; bits from `nbits` on are 0. -/
def tableWord (nbits w : Nat) : Word := BitVec.ofNat 16 (w % 2 ^ nbits)

/-- What the decoder reads from the table's bits `w`, laid out in memory high byte first (R54). -/
def decodeTableWord (nbits w : Nat) : Option Instr :=
  match decodeBytes Config.default [highByte (tableWord nbits w), lowByte (tableWord nbits w)] with
  | some (.ok i, _) => some i
  | _ => none

/-! ### The encoder (R72 formats, R75 numbers, R84 unexamined nibbles are 0) -/

/-- Format A: `op | nnn`. -/
def formatA (op : Nibble) (nnn : Addr12) : Word := op ++ nnn
/-- Format I and format S: `op | x | kk`. -/
def formatI (op : Nibble) (x : RegIdx) (kk : Byte) : Word := op ++ (nibbleOf x ++ kk)
/-- Format R: `op | x | y | n`. -/
def formatR (op : Nibble) (x : RegIdx) (y : Nibble) (n : Nibble) : Word :=
  op ++ (nibbleOf x ++ (y ++ n))

/-- The canonical word of an instruction. -/
def encodeWord (c : Config) : Instr → Word
  | .cls => 0x00E0
  | .ret => 0x00EE
  | .jp nnn => formatA 0x1 nnn
  | .call nnn => formatA 0x2 nnn
  | .seVxKk x kk => formatI 0x3 x kk
  | .sneVxKk x kk => formatI 0x4 x kk
  | .seVxVy x y => formatR 0x5 x (nibbleOf y) 0x0
  | .ldVxKk x kk => formatI 0x6 x kk
  | .addVxKk x kk => formatI 0x7 x kk
  | .ldVxVy x y => formatR 0x8 x (nibbleOf y) 0x0
  | .orVxVy x y => formatR 0x8 x (nibbleOf y) 0x1
  | .andVxVy x y => formatR 0x8 x (nibbleOf y) 0x2
  | .xorVxVy x y => formatR 0x8 x (nibbleOf y) 0x3
  | .addVxVy x y => formatR 0x8 x (nibbleOf y) 0x4
  | .subVxVy x y => formatR 0x8 x (nibbleOf y) 0x5
  | .shrVx x => formatR 0x8 x 0x0 0x6
  | .subnVxVy x y => formatR 0x8 x (nibbleOf y) 0x7
  | .shlVx x => formatR 0x8 x 0x0 c.shlSubop
  | .sneVxVy x y => formatR 0x9 x (nibbleOf y) 0x0
  | .ldINnn nnn => formatA 0xA nnn
  | .jpV0Nnn nnn => formatA 0xB nnn
  | .rndVxKk x kk => formatI 0xC x kk
  | .drwVxVyN x y n => formatR 0xD x (nibbleOf y) n
  | .skpVx x => formatI 0xE x 0x9E
  | .sknpVx x => formatI 0xE x 0xA1
  | .ldVxDt x => formatI 0xF x 0x07
  | .ldVxK x => formatI 0xF x 0x0A
  | .ldDtVx x => formatI 0xF x 0x15
  | .ldStVx x => formatI 0xF x 0x18
  | .addIVx x => formatI 0xF x 0x1E
  | .ldFVx x => formatI 0xF x 0x29
  | .ldBVx x => formatI 0xF x 0x33
  | .ldMemVx x => formatI 0xF x 0x55
  | .ldVxMem x => formatI 0xF x 0x65

/-- The two bytes of an instruction in memory order (R54, R70). -/
def encode (c : Config) (i : Instr) : List Byte :=
  [highByte (encodeWord c i), lowByte (encodeWord c i)]

/-! ### The opcode map as data (R75) -/

/-- One row of the opcode map: a word belongs to it when `w AND mask = pattern`. -/
structure Row where
  pattern : Word
  mask : Word
  deriving DecidableEq, Repr

/-- A word satisfies a row (R75). -/
def Row.holds (r : Row) (w : Word) : Bool := w &&& r.mask == r.pattern

/-- The row of the opcode map that an instruction belongs to, from the table of R75. -/
def rowOf (c : Config) : Instr → Row
  | .cls => ⟨0x00E0, 0xFFFF⟩
  | .ret => ⟨0x00EE, 0xFFFF⟩
  | .jp _ => ⟨0x1000, 0xF000⟩
  | .call _ => ⟨0x2000, 0xF000⟩
  | .seVxKk _ _ => ⟨0x3000, 0xF000⟩
  | .sneVxKk _ _ => ⟨0x4000, 0xF000⟩
  | .seVxVy _ _ => ⟨0x5000, 0xF000⟩
  | .ldVxKk _ _ => ⟨0x6000, 0xF000⟩
  | .addVxKk _ _ => ⟨0x7000, 0xF000⟩
  | .ldVxVy _ _ => ⟨0x8000, 0xF00F⟩
  | .orVxVy _ _ => ⟨0x8001, 0xF00F⟩
  | .andVxVy _ _ => ⟨0x8002, 0xF00F⟩
  | .xorVxVy _ _ => ⟨0x8003, 0xF00F⟩
  | .addVxVy _ _ => ⟨0x8004, 0xF00F⟩
  | .subVxVy _ _ => ⟨0x8005, 0xF00F⟩
  | .shrVx _ => ⟨0x8006, 0xF00F⟩
  | .subnVxVy _ _ => ⟨0x8007, 0xF00F⟩
  | .shlVx _ => ⟨0x8000 ||| c.shlSubop.setWidth 16, 0xF00F⟩
  | .sneVxVy _ _ => ⟨0x9000, 0xF000⟩
  | .ldINnn _ => ⟨0xA000, 0xF000⟩
  | .jpV0Nnn _ => ⟨0xB000, 0xF000⟩
  | .rndVxKk _ _ => ⟨0xC000, 0xF000⟩
  | .drwVxVyN _ _ _ => ⟨0xD000, 0xF000⟩
  | .skpVx _ => ⟨0xE09E, 0xF0FF⟩
  | .sknpVx _ => ⟨0xE0A1, 0xF0FF⟩
  | .ldVxDt _ => ⟨0xF007, 0xF0FF⟩
  | .ldVxK _ => ⟨0xF00A, 0xF0FF⟩
  | .ldDtVx _ => ⟨0xF015, 0xF0FF⟩
  | .ldStVx _ => ⟨0xF018, 0xF0FF⟩
  | .addIVx _ => ⟨0xF01E, 0xF0FF⟩
  | .ldFVx _ => ⟨0xF029, 0xF0FF⟩
  | .ldBVx _ => ⟨0xF033, 0xF0FF⟩
  | .ldMemVx _ => ⟨0xF055, 0xF0FF⟩
  | .ldVxMem _ => ⟨0xF065, 0xF0FF⟩

/-- The rows of families 0 to 7, in the table's order (R75). -/
def rowsLow (c : Config) : List Row :=
  [rowOf c .cls, rowOf c .ret, rowOf c (.jp 0), rowOf c (.call 0), rowOf c (.seVxKk 0 0),
    rowOf c (.sneVxKk 0 0), rowOf c (.seVxVy 0 0), rowOf c (.ldVxKk 0 0), rowOf c (.addVxKk 0 0)]

/-- The rows of family 8 (R75, R77). -/
def rowsEight (c : Config) : List Row :=
  [rowOf c (.ldVxVy 0 0), rowOf c (.orVxVy 0 0), rowOf c (.andVxVy 0 0), rowOf c (.xorVxVy 0 0),
    rowOf c (.addVxVy 0 0), rowOf c (.subVxVy 0 0), rowOf c (.shrVx 0), rowOf c (.subnVxVy 0 0),
    rowOf c (.shlVx 0)]

/-- The rows of families 9 to 0xF (R75). -/
def rowsHigh (c : Config) : List Row :=
  [rowOf c (.sneVxVy 0 0), rowOf c (.ldINnn 0), rowOf c (.jpV0Nnn 0), rowOf c (.rndVxKk 0 0),
    rowOf c (.drwVxVyN 0 0 0), rowOf c (.skpVx 0), rowOf c (.sknpVx 0), rowOf c (.ldVxDt 0),
    rowOf c (.ldVxK 0), rowOf c (.ldDtVx 0), rowOf c (.ldStVx 0), rowOf c (.addIVx 0),
    rowOf c (.ldFVx 0), rowOf c (.ldBVx 0), rowOf c (.ldMemVx 0), rowOf c (.ldVxMem 0)]

/-- All 34 rows of the opcode map (R75, R85). -/
def opcodeRows (c : Config) : List Row := rowsLow c ++ rowsEight c ++ rowsHigh c

end Sys2Proof
end

