-- ==== Sys2Proof/Machine/State.lean ====
section
/-! DEFINITION. The state of the machine, exactly the fields of 10_state.md R20 and one field of the model's
own (`draws`, log entry 1); the reasons a step could stop; and the state after reset (R33). -/

namespace Sys2Proof.Machine

/-- The fault latched in `status`: the cause and the information recorded with it, the table of
60_exceptions.md R151. The number of a cause is `FAULT_CODES` (Machine/Ops.lean, `FaultReport.code`). -/
inductive FaultReport where
  /-- Fetch with `pc >= 0xFFF`. -/
  | fetchOutOfBounds (pc0 : Word)
  /-- A word that matches no row of the opcode map. -/
  | decodeFailure (pc0 : Word) (w : Word)
  /-- An access of `n > 0` bytes from `i` that runs past 0xFFF. -/
  | memoryOutOfBounds (pc0 : Word) (i : Word) (n : Nat)
  /-- A call with 16 return addresses saved. -/
  | stackOverflow (pc0 : Word)
  /-- A return with none saved. -/
  | stackUnderflow (pc0 : Word)
  /-- A key skip whose register holds more than 15. -/
  | keyIndexOutOfRange (pc0 : Word) (k : Byte)
  deriving DecidableEq, Repr

/-- The run/fault latch (R31, R153). -/
inductive Status where
  | run
  | fault (f : FaultReport)
  deriving DecidableEq, Repr

/-- The whole architectural state (R20). -/
structure State where
  /-- `V[0..15]`, of which `V[15]` is `VF` (R21, R22). -/
  v : Vector Byte 16
  /-- The address register `I` (R23). -/
  i : Word
  /-- The program counter (R24). -/
  pc : Word
  /-- `stack[0..15]` (R25). -/
  stack : Vector Word 16
  /-- The stack cursor, 0 to 16 (R26). -/
  sp : Fin 17
  /-- The delay timer (R27). -/
  dt : Byte
  /-- The sound timer (R27). -/
  st : Byte
  /-- `mem[0..4095]` as the cells that differ from the reset contents, in canonical form (R28). -/
  mem : List Host.Cell
  /-- `fb[r][c]`, 32 rows of 64 pixels (R29). -/
  fb : Vector (Vector Bool 64) 32
  /-- The keypad snapshot `key[0..15]` (R30). -/
  keys : Vector Bool 16
  /-- The run/fault latch (R31). -/
  status : Status
  /-- The MODEL's own: how many random bytes have been used (log entry 1). -/
  draws : Nat
  deriving DecidableEq, Repr

/-- Reasons to stop with no next state: NONE. Every fault of this machine has an entry the spec describes
(60_exceptions.md R153: the report is latched in `status` and nothing else changes), so a faulting step is a
next state and nobody raises a `Fault`. Having none is neither safe nor unsafe: the type is empty (log
entry 5). -/
inductive Fault : Type
  deriving DecidableEq, Repr

/-- Reasons an instruction has no meaning in the model. -/
inductive Refusal where
  /-- Raised by an arm of `exec` whose instruction has no meaning yet; no arm does. It would be safe: the
  model stops where the hardware goes on. -/
  | notModelled (mnemonic : String)
  deriving DecidableEq, Repr

/-- An unlit screen (R33). -/
def blankScreen : Vector (Vector Bool 64) 32 := Vector.replicate 32 (Vector.replicate 64 false)

/-- The state after `RESET`: the table of 10_state.md R33. Memory lists nothing: it holds its reset
contents. `draws` is the model's own (log entry 1). -/
def State.reset : State where
  v := Vector.replicate 16 0
  i := 0
  pc := 0x200
  stack := Vector.replicate 16 0
  sp := 0
  dt := 0
  st := 0
  mem := []
  fb := blankScreen
  keys := Vector.replicate 16 false
  status := .run
  draws := 0

end Sys2Proof.Machine
end

