-- ==== Sys2Proof/WellFormed.lean ====
section
/-! DEFINITION. Which data are meaningful. The types of `Instr`'s operands already bound every register
number, immediate and address, so what is left to check is: that shift-left has a sub-opcode of its own
(30_encoding.md R75 "no word satisfies two rows"), that the six fault causes have six numbers
(60_exceptions.md R151), and that a program fits (70_reset_and_hazards.md R171). -/

namespace Sys2Proof

/-- The sub-opcodes 0 to 7 of family 8 belong to the first eight operations (R77), so shift-left can be at
8 or above only. -/
def Config.shlSubopFree (c : Config) : Bool := 8 ≤ c.shlSubop.toNat

/-- Six causes, six different numbers (R151). -/
def FaultCodes.distinct (f : FaultCodes) : Bool :=
  [f.fetchOutOfBounds, f.decodeFailure, f.memoryOutOfBounds, f.stackOverflow, f.stackUnderflow,
    f.keyIndexOutOfRange].Nodup

/-- A configuration the rules can be read with. -/
def Config.wf (c : Config) : Bool := c.shlSubopFree && c.faultCodes.distinct

/-- An instruction is well-formed under a configuration when it has a word of its own there (R75): only
shift-left depends on the configuration. -/
def Instr.wf (c : Config) : Instr → Bool
  | .shlVx _ => c.shlSubopFree
  | .cls | .ret | .jp _ | .call _ | .seVxKk _ _ | .sneVxKk _ _ | .seVxVy _ _ | .ldVxKk _ _
  | .addVxKk _ _ | .ldVxVy _ _ | .orVxVy _ _ | .andVxVy _ _ | .xorVxVy _ _ | .addVxVy _ _
  | .subVxVy _ _ | .shrVx _ | .subnVxVy _ _ | .sneVxVy _ _ | .ldINnn _ | .jpV0Nnn _
  | .rndVxKk _ _ | .drwVxVyN _ _ _ | .skpVx _ | .sknpVx _ | .ldVxDt _ | .ldVxK _ | .ldDtVx _
  | .ldStVx _ | .addIVx _ | .ldFVx _ | .ldBVx _ | .ldMemVx _ | .ldVxMem _ => true

/-- `PROG_BASE`, the address a program is loaded at and starts from (R6, R24). -/
def progBase : Nat := 0x200

/-- `MEM_SIZE`, the number of bytes of memory (R6, R50). -/
def memSize : Nat := 4096

/-- `ROM_MAX`, the longest program (R6, R171). -/
def romMax : Nat := memSize - progBase

/-- A program that `LOAD` accepts (R171). -/
def romFits (bytes : List Byte) : Bool := bytes.length ≤ romMax

end Sys2Proof
end

