-- ==== Sys2Proof/Machine/Ops.lean ====
section
/-! DEFINITION. The named operations every instruction is written with: general registers (10_state.md R21,
R22), the program counter (41_flow.md R101), the call stack (R25, R26), memory with its bounds check
(20_memory.md R52, R53), instruction fetch, the pixel buffer (R29), and taking a fault (60_exceptions.md R151,
R153). There is no return from a fault to model: R154. -/

namespace Sys2Proof.Machine

/-- What an instruction answers. -/
abbrev Result := Host.Outcome State Fault Refusal

/-! ### Faults -/

/-- FAULT ENTRY (R153): the report is latched in `status` and nothing else changes. Every fault of the
machine is taken here; the step that raises it is a next state. -/
def raise (f : FaultReport) (s : State) : Result := .next { s with status := .fault f }

/-- The number of a cause under `FAULT_CODES` (R151). -/
def FaultReport.code (k : FaultCodes) : FaultReport → Nat
  | .fetchOutOfBounds _ => k.fetchOutOfBounds
  | .decodeFailure _ _ => k.decodeFailure
  | .memoryOutOfBounds _ _ _ => k.memoryOutOfBounds
  | .stackOverflow _ => k.stackOverflow
  | .stackUnderflow _ => k.stackUnderflow
  | .keyIndexOutOfRange _ _ => k.keyIndexOutOfRange

/-- The `pc0` recorded with every cause (R151). -/
def FaultReport.pc0 : FaultReport → Word
  | .fetchOutOfBounds p => p
  | .decodeFailure p _ => p
  | .memoryOutOfBounds p _ _ => p
  | .stackOverflow p => p
  | .stackUnderflow p => p
  | .keyIndexOutOfRange p _ => p

/-! ### General registers -/

/-- `V[x]` (R8, R21). -/
def State.getV (s : State) (x : RegIdx) : Byte := s.v[x.val]

/-- `V[x] <- b` (R8, R21). -/
def State.setV (s : State) (x : RegIdx) (b : Byte) : State := { s with v := s.v.set x.val b }

/-- A flag as the 8-bit value 0x00 or 0x01 (R22). -/
def flagByte (f : Bool) : Byte := if f then 1 else 0

/-- `V[0xF] <- flag`, the whole register (R22). -/
def State.setVF (s : State) (f : Bool) : State := s.setV flagReg (flagByte f)

/-- The result in `V[x]` first, the flag in `V[0xF]` second, so that the flag is what remains where
`x = 0xF` (42_alu.md R110). -/
def State.setFlagged (s : State) (x : RegIdx) (b : Byte) (f : Bool) : State := (s.setV x b).setVF f

/-- The registers `V[k], V[k+1], ...` overwritten with the bytes in order (43_index_memory.md R135). -/
def setRegsFrom (v : Vector Byte 16) (k : Nat) : List Byte → Vector Byte 16
  | [] => v
  | b :: bs => setRegsFrom (v.setIfInBounds k b) (k + 1) bs

/-! ### Address register and program counter -/

/-- `I <- w` (R23). -/
def State.setI (s : State) (w : Word) : State := { s with i := w }

/-- `pc <- w` (R24). -/
def State.setPc (s : State) (w : Word) : State := { s with pc := w }

/-- The normal advance, `pc <- pc0 + 2` (R100, R101). The sum cannot wrap in a `STEP`, which executes only
with `pc0 <= 0xFFE` (log entry 7). -/
def State.advance (s : State) : State := s.setPc (s.pc + 2)

/-- The advance of a skip: `pc0 + 4` where the condition holds, else `pc0 + 2` (R101). -/
def State.skipIf (s : State) (taken : Bool) : State := s.setPc (if taken then s.pc + 4 else s.pc + 2)

/-! ### Call stack -/

/-- `stack[sp] <- w; sp <- sp + 1`, or nothing where the stack is full (R26, R104). -/
def State.push (s : State) (w : Word) : Option State :=
  if h : s.sp.val < 16 then
    some { s with stack := s.stack.set s.sp.val w, sp := ⟨s.sp.val + 1, by omega⟩ }
  else none

/-- `sp <- sp - 1` and the entry `stack[sp]`, or nothing where the stack is empty; the entry is not erased
(R26, R102). -/
def State.pop (s : State) : Option (Word × State) :=
  if h : 0 < s.sp.val then
    some (s.stack[s.sp.val - 1], { s with sp := ⟨s.sp.val - 1, by omega⟩ })
  else none

/-! ### Memory -/

/-- The byte of `FONT` at an address, 0 outside 0x000 to 0x04F (R52). -/
def fontByte (f : Font) (a : Nat) : Byte := if h : a < 80 then (f[a / 5])[a % 5] else 0

/-- What an address that memory does not list reads as: its reset contents (R33, R52, log entry 12). -/
def unlisted (a : Nat) : Byte := fontByte Config.default.font a

/-- `mem[a]`: the listed byte, or the reset contents. -/
def readByte : List Host.Cell → Nat → Byte
  | [], a => unlisted a
  | (k, b) :: rest, a => if a = k then b else readByte rest a

/-- Put a cell at its place in the list. -/
def putCell (a : Nat) (b : Byte) : List Host.Cell → List Host.Cell
  | [] => [(a, b)]
  | (k, c) :: rest =>
    if a < k then (a, b) :: (k, c) :: rest
    else if a = k then (a, b) :: rest
    else (k, c) :: putCell a b rest

/-- Take every cell of an address out of the list. -/
def dropCell (a : Nat) : List Host.Cell → List Host.Cell
  | [] => []
  | (k, c) :: rest => if a = k then dropCell a rest else (k, c) :: dropCell a rest

/-- `mem[a] <- b`, keeping the canonical form: the byte an unlisted address reads as is not listed. -/
def writeByte (m : List Host.Cell) (a : Nat) (b : Byte) : List Host.Cell :=
  if b = unlisted a then dropCell a m else putCell a b m

/-- The canonical form of a list whose addresses start at `lo`. -/
def wfFrom (lo : Nat) : List Host.Cell → Bool
  | [] => true
  | (k, b) :: rest => lo ≤ k && k < memSize && b != unlisted k && wfFrom (k + 1) rest

/-- The canonical form of memory: addresses strictly rising, all below 4096 (R50), no byte equal to what its
address reads as when unlisted. -/
def Memory.wf (m : List Host.Cell) : Bool := wfFrom 0 m

/-- The bytes at `a, a+1, ..., a+n-1`, in that order (R9). -/
def readBytes (m : List Host.Cell) (a : Nat) : Nat → List Byte
  | 0 => []
  | n + 1 => readByte m a :: readBytes m (a + 1) n

/-- The bytes stored at `a, a+1, ...`, in that order (R9). -/
def writeBytes (m : List Host.Cell) (a : Nat) : List Byte → List Host.Cell
  | [] => m
  | b :: bs => writeBytes (writeByte m a b) (a + 1) bs

/-- The bounds of an access of `n` bytes at `a`, over the integers: it is out of bounds when `n > 0` and
`a + n - 1 > 0xFFF` (R9, R53). -/
def inBounds (a n : Nat) : Bool := n = 0 || a + n - 1 ≤ 0xFFF

/-- `MemRead(a, n)` (R9, R53): the bytes, or nothing where the access is out of bounds. -/
def memRead (s : State) (a n : Nat) : Option (List Byte) :=
  if inBounds a n then some (readBytes s.mem a n) else none

/-- `MemWrite(a, n, bytes)` (R9, R53): the state with the bytes stored, or nothing where the access is out of
bounds, so that a faulting store writes no byte. -/
def memWrite (s : State) (a : Nat) (bytes : List Byte) : Option State :=
  if inBounds a bytes.length then some { s with mem := writeBytes s.mem a bytes } else none

/-- `Fetch(pc)` (R53, R54): the word at `pc`, high byte first, or nothing where `pc + 1 > 0xFFF`. -/
def fetch (s : State) : Option Word :=
  if s.pc.toNat + 1 > 0xFFF then none
  else some (wordOfBytes (readByte s.mem s.pc.toNat) (readByte s.mem (s.pc.toNat + 1)))

/-- The state with the word `w` where the next fetch reads it, the core in `RUN`; a `pc` that cannot be
fetched from is moved to the entry point (log entry 8). -/
def placeWord (s : State) (w : Word) : State :=
  let at_ : Word := if s.pc.toNat + 1 > 0xFFF then 0x200 else s.pc
  { s with
    pc := at_
    mem := writeBytes s.mem at_.toNat [highByte w, lowByte w]
    status := .run }

/-! ### Pixel buffer -/

/-- `fb[r][c]`, unlit outside the buffer (R29). -/
def pixelAt (fb : Vector (Vector Bool 64) 32) (r c : Nat) : Bool :=
  if h : r < 32 ∧ c < 64 then (fb[r]'h.1)[c]'h.2 else false

/-- `fb[r][c] <- b`, nothing outside the buffer (R29). -/
def setPixel (fb : Vector (Vector Bool 64) 32) (r c : Nat) (b : Bool) : Vector (Vector Bool 64) 32 :=
  if h : r < 32 ∧ c < 64 then fb.set r ((fb[r]'h.1).set c b h.2) h.1 else fb

/-! ### Random byte -/

/-- One more random byte has been used (log entry 1). -/
def State.countDraw (s : State) : State := { s with draws := s.draws + 1 }

end Sys2Proof.Machine
end

