-- ==== Sys2Proof/Machine/Flags.lean ====
section
/-! DEFINITION. The flag computations (42_alu.md R110, R117 to R121), all from the register values before the
instruction. The collision flag of draw-sprite is computed while drawing (Machine/Display.lean). -/

namespace Sys2Proof.Machine

/-- Carry out of add: the unsigned sum is over 255 (R117). -/
def carryOut (a b : Byte) : Bool := 255 < a.toNat + b.toNat

/-- "Not borrow" of `a - b`: strictly greater, so equal operands give 0 (R118, R120). -/
def notBorrow (a b : Byte) : Bool := b.toNat < a.toNat

/-- The bit shift-right shifts out (R119). -/
def shrFlag (a : Byte) : Bool := a.getLsbD 0

/-- The bit shift-left copies, chosen by `SHL_FLAG_BIT` (R121). -/
def shlFlag (k : ShlFlagBit) (a : Byte) : Bool := a.getLsbD k.index

end Sys2Proof.Machine
end

