-- ==== Sys2Proof/Machine/Operands.lean ====
section
/-! DEFINITION. The operand forms: `V[x]` is `State.getV` (Machine/Ops.lean), `kk` stands as it is, `nnn` and
register values are zero-extended where they meet a 16-bit register (30_encoding.md R73), a register range is
inclusive of `x` (43_index_memory.md R134, R135), a key is named by the whole of `V[x]` (44_keypad_timers.md
R140). -/

namespace Sys2Proof.Machine

/-- `zext_16(nnn)` (R73). -/
def addrOf (nnn : Addr12) : Word := nnn.setWidth 16

/-- `zext_16(b)` of a register value (R73). -/
def wordOf (b : Byte) : Word := b.setWidth 16

/-- `[V[0], V[1], ..., V[x]]`, inclusive of `x` (R134). -/
def State.regsThrough (s : State) (x : RegIdx) : List Byte := s.v.toList.take (x.val + 1)

/-- How many registers the range through `x` has (R134, R135). -/
def rangeSize (x : RegIdx) : Nat := x.val + 1

/-- The key a register value names: none above 15 (R140). -/
def keyOf (b : Byte) : Option (Fin 16) := if h : b.toNat < 16 then some ⟨b.toNat, h⟩ else none

/-- `key[k]` (R30). -/
def State.keyDown (s : State) (k : Fin 16) : Bool := s.keys[k.val]

/-- The lowest-indexed pressed key (R143). -/
def State.lowestKey (s : State) : Option Nat := s.keys.toList.findIdx? (fun down => down)

/-- The hundreds, tens and units of a byte, in that order (R133). -/
def bcdDigits (b : Byte) : List Byte :=
  [BitVec.ofNat 8 (b.toNat / 100), BitVec.ofNat 8 (b.toNat / 10 % 10), BitVec.ofNat 8 (b.toNat % 10)]

/-- The address of the glyph of a digit, `V[x] * 5`, the whole of `V[x]` used (R132). -/
def glyphAddr (b : Byte) : Word := wordOf b * 5

end Sys2Proof.Machine
end

