-- ==== Sys2Proof/Machine/Alu.lean ====
section
/-! DEFINITION. Register arithmetic and logic (42_alu.md R110 to R123). Byte arithmetic wraps modulo 256
(R123). -/

namespace Sys2Proof.Machine

/-- `LD Vx, kk` (R111). -/
def execLdVxKk (x : RegIdx) (kk : Byte) (s : State) : Result := .next (s.setV x kk).advance

/-- `ADD Vx, kk` (R112): no flag, even where the sum exceeds 255. -/
def execAddVxKk (x : RegIdx) (kk : Byte) (s : State) : Result := .next (s.setV x (s.getV x + kk)).advance

/-- `LD Vx, Vy` (R113). -/
def execLdVxVy (x y : RegIdx) (s : State) : Result := .next (s.setV x (s.getV y)).advance

/-- `OR Vx, Vy` (R114): `VF` is left alone. -/
def execOrVxVy (x y : RegIdx) (s : State) : Result := .next (s.setV x (s.getV x ||| s.getV y)).advance

/-- `AND Vx, Vy` (R115): `VF` is left alone. -/
def execAndVxVy (x y : RegIdx) (s : State) : Result := .next (s.setV x (s.getV x &&& s.getV y)).advance

/-- `XOR Vx, Vy` (R116): `VF` is left alone. -/
def execXorVxVy (x y : RegIdx) (s : State) : Result := .next (s.setV x (s.getV x ^^^ s.getV y)).advance

/-- `ADD Vx, Vy` (R117): the sum, and the carry out in `VF`. -/
def execAddVxVy (x y : RegIdx) (s : State) : Result :=
  .next (s.setFlagged x (s.getV x + s.getV y) (carryOut (s.getV x) (s.getV y))).advance

/-- `SUB Vx, Vy` (R118): `V[x] - V[y]`, and not-borrow in `VF`. -/
def execSubVxVy (x y : RegIdx) (s : State) : Result :=
  .next (s.setFlagged x (s.getV x - s.getV y) (notBorrow (s.getV x) (s.getV y))).advance

/-- `SHR Vx` (R119): a logical shift by one, the bit shifted out in `VF`. -/
def execShrVx (x : RegIdx) (s : State) : Result :=
  .next (s.setFlagged x (s.getV x >>> 1) (shrFlag (s.getV x))).advance

/-- `SUBN Vx, Vy` (R120): `V[y] - V[x]`, and not-borrow in `VF`. -/
def execSubnVxVy (x y : RegIdx) (s : State) : Result :=
  .next (s.setFlagged x (s.getV y - s.getV x) (notBorrow (s.getV y) (s.getV x))).advance

/-- Shift-left by one with the flag bit as an argument (R121). -/
def shiftLeft (k : ShlFlagBit) (x : RegIdx) (s : State) : Result :=
  .next (s.setFlagged x (s.getV x <<< 1) (shlFlag k (s.getV x))).advance

/-- `SHL Vx` (R121) with the default `SHL_FLAG_BIT`. -/
def execShlVx (x : RegIdx) (s : State) : Result := shiftLeft Config.default.shlFlagBit x s

/-- Random-and-mask with the random byte as an argument (R122). -/
def randomAndMask (rnd : Byte) (x : RegIdx) (kk : Byte) (s : State) : Result :=
  .next (s.setV x (rnd &&& kk)).countDraw.advance

/-- `RND Vx, kk` (R122) with the free byte of this draw (log entry 1). -/
def execRndVxKk (x : RegIdx) (kk : Byte) (s : State) : Result :=
  randomAndMask (Config.rndByte s.draws) x kk s

end Sys2Proof.Machine
end

