-- ==== Sys2Proof/Machine/Display.lean ====
section
/-! DEFINITION. The display instructions, clear-display and draw-sprite (40_display.md R90, R91), with the
pixel-drawing and collision-detection engine written as the loop of R91. -/

namespace Sys2Proof.Machine

/-- What the loop of R91 carries: the buffer and the collision found so far. -/
structure Canvas where
  fb : Vector (Vector Bool 64) 32
  collision : Bool
  deriving DecidableEq, Repr

/-- One bit of the sprite at `(row, col)`: past the bottom or right edge it is skipped, a 0 bit leaves its
pixel alone, a 1 bit flips it and collides with a lit one (R91). -/
def drawPixel (row col : Nat) (bit : Bool) (k : Canvas) : Canvas :=
  if row ≤ 31 ∧ col ≤ 63 ∧ bit = true then
    { fb := setPixel k.fb row col (!pixelAt k.fb row col)
      collision := k.collision || pixelAt k.fb row col }
  else k

/-- The first `n` columns of a sprite row, bit 7 of the byte leftmost (R91). -/
def drawColumns (row cx : Nat) (b : Byte) : Nat → Canvas → Canvas
  | 0, k => k
  | n + 1, k => drawPixel row (cx + n) (b.getLsbD (7 - n)) (drawColumns row cx b n k)

/-- One sprite row of 8 columns (R91). -/
def drawRow (row cx : Nat) (b : Byte) (k : Canvas) : Canvas := drawColumns row cx b 8 k

/-- The sprite's rows from `row` downward (R91). -/
def drawRows (cx : Nat) : Nat → List Byte → Canvas → Canvas
  | _, [], k => k
  | row, b :: bs, k => drawRows cx (row + 1) bs (drawRow row cx b k)

/-- `CLS` (R90). -/
def execCls (s : State) : Result := .next { s with fb := blankScreen }.advance

/-- `DRW Vx, Vy, n` (R91): coordinates are read before any write, all `n` bytes are read and bounds-checked
before any pixel is drawn, `VF` is written last. -/
def execDrwVxVyN (x y : RegIdx) (n : Nibble) (s : State) : Result :=
  match memRead s s.i.toNat n.toNat with
  | none => raise (.memoryOutOfBounds s.pc s.i n.toNat) s
  | some rows =>
    let k := drawRows (s.getV x).toNat (s.getV y).toNat rows ⟨s.fb, false⟩
    .next (({ s with fb := k.fb }.setVF k.collision).advance)

end Sys2Proof.Machine
end

