-- ==== Sys2Proof/Machine/Flow.lean ====
section
/-! DEFINITION. Control transfer: return, jump, call, the four skips on register values, jump-with-offset
(41_flow.md R102 to R109). -/

namespace Sys2Proof.Machine

/-- `RET` (R102): the popped address, no further advance. -/
def execRet (s : State) : Result :=
  match s.pop with
  | none => raise (.stackUnderflow s.pc) s
  | some (w, t) => .next (t.setPc w)

/-- `JP nnn` (R103). -/
def execJp (nnn : Addr12) (s : State) : Result := .next (s.setPc (addrOf nnn))

/-- `CALL nnn` (R104): the address pushed is `pc0 + 2`. -/
def execCall (nnn : Addr12) (s : State) : Result :=
  match s.push (s.pc + 2) with
  | none => raise (.stackOverflow s.pc) s
  | some t => .next (t.setPc (addrOf nnn))

/-- `SE Vx, kk` (R105). -/
def execSeVxKk (x : RegIdx) (kk : Byte) (s : State) : Result := .next (s.skipIf (s.getV x == kk))

/-- `SNE Vx, kk` (R106). -/
def execSneVxKk (x : RegIdx) (kk : Byte) (s : State) : Result := .next (s.skipIf (s.getV x != kk))

/-- `SE Vx, Vy` (R107). -/
def execSeVxVy (x y : RegIdx) (s : State) : Result := .next (s.skipIf (s.getV x == s.getV y))

/-- `SNE Vx, Vy` (R108). -/
def execSneVxVy (x y : RegIdx) (s : State) : Result := .next (s.skipIf (s.getV x != s.getV y))

/-- `JP V0, nnn` (R109): the plain sum, at most 0x10FE, neither wrapped nor masked. -/
def execJpV0Nnn (nnn : Addr12) (s : State) : Result :=
  .next (s.setPc (addrOf nnn + wordOf (s.getV 0)))

end Sys2Proof.Machine
end

