-- ==== Sys2Proof/Machine/IndexMemory.lean ====
section
/-! DEFINITION. The address register and the loads and stores through it (43_index_memory.md R130 to R135).
`I` is changed only by the first three; a store or load out of bounds faults before any effect (R9, R53). -/

namespace Sys2Proof.Machine

/-- `LD I, nnn` (R130). -/
def execLdINnn (nnn : Addr12) (s : State) : Result := .next (s.setI (addrOf nnn)).advance

/-- `ADD I, Vx` (R131): modulo 65536, no flag. -/
def execAddIVx (x : RegIdx) (s : State) : Result := .next (s.setI (s.i + wordOf (s.getV x))).advance

/-- `LD F, Vx` (R132). -/
def execLdFVx (x : RegIdx) (s : State) : Result := .next (s.setI (glyphAddr (s.getV x))).advance

/-- The bytes stored from `I` upward, or `MemoryOutOfBounds` with no byte stored (R53). -/
def storeAtI (bytes : List Byte) (s : State) : Result :=
  match memWrite s s.i.toNat bytes with
  | none => raise (.memoryOutOfBounds s.pc s.i bytes.length) s
  | some t => .next t.advance

/-- `LD B, Vx` (R133): hundreds, tens, units at `I`, `I+1`, `I+2`. -/
def execLdBVx (x : RegIdx) (s : State) : Result := storeAtI (bcdDigits (s.getV x)) s

/-- `LD [I], Vx` (R134): `V[0]` to `V[x]` at `I` upward. -/
def execLdMemVx (x : RegIdx) (s : State) : Result := storeAtI (s.regsThrough x) s

/-- `LD Vx, [I]` (R135): `V[0]` to `V[x]` from `I` upward, no register written where it faults. -/
def execLdVxMem (x : RegIdx) (s : State) : Result :=
  match memRead s s.i.toNat (rangeSize x) with
  | none => raise (.memoryOutOfBounds s.pc s.i (rangeSize x)) s
  | some bytes => .next { s with v := setRegsFrom s.v 0 bytes }.advance

end Sys2Proof.Machine
end

