-- ==== Sys2Proof/Machine/KeypadTimers.lean ====
section
/-! DEFINITION. The keypad and timer instructions (44_keypad_timers.md R140 to R145). -/

namespace Sys2Proof.Machine

/-- A skip on the key named by `V[x]`: where it names none, `KeyIndexOutOfRange` (R140, R141). -/
def skipOnKey (x : RegIdx) (wantDown : Bool) (s : State) : Result :=
  match keyOf (s.getV x) with
  | none => raise (.keyIndexOutOfRange s.pc (s.getV x)) s
  | some k => .next (s.skipIf (s.keyDown k == wantDown))

/-- `SKP Vx` (R140). -/
def execSkpVx (x : RegIdx) (s : State) : Result := skipOnKey x true s

/-- `SKNP Vx` (R141). -/
def execSknpVx (x : RegIdx) (s : State) : Result := skipOnKey x false s

/-- `LD Vx, DT` (R142). -/
def execLdVxDt (x : RegIdx) (s : State) : Result := .next (s.setV x s.dt).advance

/-- `LD Vx, K` (R143): with no key down nothing changes, `pc` included; else the lowest pressed key. -/
def execLdVxK (x : RegIdx) (s : State) : Result :=
  match s.lowestKey with
  | none => .next s
  | some k => .next (s.setV x (BitVec.ofNat 8 k)).advance

/-- `LD DT, Vx` (R144). -/
def execLdDtVx (x : RegIdx) (s : State) : Result := .next { s with dt := s.getV x }.advance

/-- `LD ST, Vx` (R145). -/
def execLdStVx (x : RegIdx) (s : State) : Result := .next { s with st := s.getV x }.advance

end Sys2Proof.Machine
end

