-- ==== Sys2Proof/Machine/Cycle.lean ====
section
/-! DEFINITION. One cycle, `STEP(rnd)` of 41_flow.md R100, under a configuration (00_scope.md R6) and with its
random byte as an argument (R4, R12). `step` (Machine/Step.lean) is this cycle at the default configuration
and the free random byte. -/

namespace Sys2Proof.Machine

/-- `Execute(inst, rnd)` under a configuration: `exec`, but for the two instructions that look at an argument
of the cycle, random-and-mask at `rnd` (R122) and shift-left at `SHL_FLAG_BIT` (R121). -/
def execIn (c : Config) (rnd : Byte) (i : Instr) (s : State) : Result :=
  match i with
  | .rndVxKk x kk => randomAndMask rnd x kk s
  | .shlVx x => shiftLeft c.shlFlagBit x s
  | other => exec other s

/-- The decode and execute stages on the fetched word (R100): an illegal word raises `DecodeFailure` (R81,
R151). -/
def decodeAndExecute (c : Config) (rnd : Byte) (w : Word) (s : State) : Result :=
  match decodeWord c w with
  | .error _ => raise (.decodeFailure s.pc w) s
  | .ok i => execIn c rnd i s

/-- The fetch stage and what follows it (R100, R53). -/
def fetchAndExecute (c : Config) (rnd : Byte) (s : State) : Result :=
  match fetch s with
  | none => raise (.fetchOutOfBounds s.pc) s
  | some w => decodeAndExecute c rnd w s

/-- `STEP(rnd)` (R100): a faulted core is quiescent (R153), otherwise fetch, decode, execute. -/
def cycle (c : Config) (rnd : Byte) (s : State) : Result :=
  match s.status with
  | .fault _ => .next s
  | .run => fetchAndExecute c rnd s

end Sys2Proof.Machine
end

