-- ==== Sys2Proof/Machine/Step.lean ====
section
/-! DEFINITION. The step of the machine, the `STEP` event at the default configuration with a free random byte
(41_flow.md R100), and a word placed where the next step fetches it (log entry 8). -/

namespace Sys2Proof.Machine

/-- `STEP` (R100) with the free random byte of the next draw (log entry 1). -/
def step (s : State) : Host.Outcome State Fault Refusal :=
  cycle Config.default (Config.rndByte s.draws) s

/-- `s` with the instruction of the table's bits `w` stored where `step` fetches its next instruction: it
stands for the load of a program (70_reset_and_hazards.md R171, log entry 8). -/
def State.withFetchWord (s : State) (nbits w : Nat) : State := placeWord s (tableWord nbits w)

end Sys2Proof.Machine
end

