-- ==== Sys2Proof/Machine/Events.lean ====
section
/-! DEFINITION. The other four events of the core (00_scope.md R4), the five events as one operation, the
outputs the host reads (R5), and the schedules the spec names (70_reset_and_hazards.md R172, R178). -/

namespace Sys2Proof.Machine

/-! ### RESET -/

/-- The 80 bytes of `FONT` in address order (20_memory.md R52). -/
def fontBytes (f : Font) : List Byte := (f.toList.map Vector.toList).flatten

/-- The state after `RESET` under a configuration (10_state.md R33): that of the default configuration with
the configured font at 0x000. -/
def resetWith (c : Config) : State :=
  { State.reset with mem := writeBytes State.reset.mem 0 (fontBytes c.font) }

/-- `RESET` (R170): accepted in any state. The model's own count of random bytes goes on, so that a reset
does not make the free bytes repeat (log entry 1). -/
def resetEvent (c : Config) (s : State) : State := { resetWith c with draws := s.draws }

/-! ### LOAD -/

/-- What `LOAD` answers the host (R171). -/
inductive LoadResult where
  | ok
  | romTooLarge
  | ignored
  deriving DecidableEq, Repr

/-- The result of `LOAD(bytes)` (R171, 60_exceptions.md R166). -/
def loadResult (bytes : List Byte) (s : State) : LoadResult :=
  match s.status with
  | .fault _ => .ignored
  | .run => if romFits bytes then .ok else .romTooLarge

/-- The state after `LOAD(bytes)` (R171, 20_memory.md R65). -/
def load (bytes : List Byte) (s : State) : State :=
  match loadResult bytes s with
  | .ok => { s with mem := writeBytes s.mem progBase bytes }
  | .romTooLarge => s
  | .ignored => s

/-! ### SETKEYS and TICK -/

/-- `SETKEYS(k)` (R160). -/
def setKeys (k : Vector Bool 16) (s : State) : State :=
  match s.status with
  | .fault _ => s
  | .run => { s with keys := k }

/-- A timer after one tick: down by one, clamped at 0 (R157). -/
def countDown (t : Byte) : Byte := if 0 < t.toNat then t - 1 else t

/-- `TICK` (R157): both timers, independently; it does not look at the instruction stream (R159). -/
def tick (s : State) : State :=
  match s.status with
  | .fault _ => s
  | .run => { s with dt := countDown s.dt, st := countDown s.st }

/-! ### The five events -/

/-- The input events of the core (R4). -/
inductive Event where
  | reset
  | load (bytes : List Byte)
  | setKeys (k : Vector Bool 16)
  | step (rnd : Byte)
  | tick
  deriving DecidableEq, Repr

/-- What an event does to the state under a configuration (R4). -/
def apply (c : Config) (e : Event) (s : State) : Result :=
  match e with
  | .reset => .next (resetEvent c s)
  | .load bytes => .next (load bytes s)
  | .setKeys k => .next (setKeys k s)
  | .step rnd => cycle c rnd s
  | .tick => .next (tick s)

/-- A schedule of events, in the host's order (R4, R176). -/
def applyAll (c : Config) : List Event → State → Result
  | [], s => .next s
  | e :: es, s =>
    match apply c e s with
    | .next t => applyAll c es t
    | .fault f => .fault f
    | .refused r => .refused r

/-- The boot sequence up to the first cycle: `RESET`, then `LOAD` (R172). -/
def bootEvents (program : List Byte) : List Event := [.reset, .load program]

/-- The reference composition: `SETKEYS; STEP; TICK` (R178). -/
def referenceCycle (k : Vector Bool 16) (rnd : Byte) : List Event := [.setKeys k, .step rnd, .tick]

/-! ### Outputs (R5) -/

/-- The pixel buffer output, by row and column (R161). -/
def State.pixel (s : State) (r c : Nat) : Bool := pixelAt s.fb r c

/-- The sound signal `ST > 0` (R162). -/
def State.soundOn (s : State) : Bool := 0 < s.st.toNat

/-- The status output: none in `RUN`, else the code and the report (R5, R31, R151). -/
def State.statusOutput (c : Config) (s : State) : Option (Nat × FaultReport) :=
  match s.status with
  | .run => none
  | .fault f => some (f.code c.faultCodes, f)

end Sys2Proof.Machine
end

