-- ==== Sys2Proof/Safety.lean ====
section
/-! DEFINITION. The terms claims are stated in: what is invariant, what is reachable, what a run that has
finished or waits looks like, when each fault is raised (60_exceptions.md R151), and what an instruction
leaves unchanged. -/

namespace Sys2Proof.Machine

/-! ### The instruction a step is about -/

/-- The instruction the next `STEP` executes: none where the core is faulted, cannot fetch or cannot decode
(R100). -/
def nextInstr (c : Config) (s : State) : Option Instr :=
  match s.status, fetch s with
  | .run, some w =>
    match decodeWord c w with
    | .ok i => some i
    | .error _ => none
  | _, _ => none

/-- The number of bytes of memory an instruction accesses through `I`, for those that do (20_memory.md R58). -/
def accessSize : Instr → Option Nat
  | .drwVxVyN _ _ n => some n.toNat
  | .ldBVx _ => some 3
  | .ldMemVx x => some (x.val + 1)
  | .ldVxMem x => some (x.val + 1)
  | _ => none

/-- When each fault is raised and with what information: the table of 60_exceptions.md R151, one clause a
row. -/
def faultCondition (c : Config) (s : State) : FaultReport → Prop
  | .fetchOutOfBounds p => p = s.pc ∧ s.pc.toNat ≥ 0xFFF
  | .decodeFailure p w => p = s.pc ∧ fetch s = some w ∧ ∀ r ∈ opcodeRows c, r.holds w = false
  | .memoryOutOfBounds p a n =>
    p = s.pc ∧ a = s.i ∧ n > 0 ∧ a.toNat + n - 1 > 0xFFF ∧
      ∃ j, nextInstr c s = some j ∧ accessSize j = some n
  | .stackOverflow p => p = s.pc ∧ s.sp = 16 ∧ ∃ nnn, nextInstr c s = some (.call nnn)
  | .stackUnderflow p => p = s.pc ∧ s.sp = 0 ∧ nextInstr c s = some .ret
  | .keyIndexOutOfRange p k =>
    p = s.pc ∧ k.toNat > 15 ∧
      ∃ x, k = s.getV x ∧ (nextInstr c s = some (.skpVx x) ∨ nextInstr c s = some (.sknpVx x))

/-! ### Invariants and runs -/

/-- Memory is in its canonical form. -/
def memoryCanonical (s : State) : Prop := Memory.wf s.mem = true

/-- "The largest value any rule can write to `pc` is 0x10FE" (R101) and "`pc0 + 2` is at most 0x1000" on the
stack (R104). -/
def addressesBounded (s : State) : Prop :=
  s.pc.toNat ≤ 0x10FE ∧ ∀ k : Fin 16, (s.stack[k.val]).toNat ≤ 0x1000

/-- The states some schedule of events reaches from the state after reset (R4, R172). -/
inductive Reachable (c : Config) : State → Prop where
  | start : Reachable c (resetWith c)
  | event {s t : State} (e : Event) : Reachable c s → apply c e s = .next t → Reachable c t

/-- A finished program: the word at `pc` is a jump to `pc` (R173). A faulted state is never final (R153). -/
def Finished (c : Config) (s : State) : Prop := ∃ nnn : Addr12, nextInstr c s = some (.jp nnn) ∧ addrOf nnn = s.pc

/-- The wait state: `pc` points at block-until-key and no key is down (R165). -/
def Waiting (c : Config) (s : State) : Prop := (∃ x, nextInstr c s = some (.ldVxK x)) ∧ s.lowestKey = none

/-! ### What each instruction may write -/

/-- The general registers an instruction may write: its destination `x`, `V[0]` to `V[x]` for load-registers,
and `VF` for the six flag writers of 10_state.md R22. -/
def writesRegs : Instr → List RegIdx
  | .ldVxKk x _ | .addVxKk x _ | .ldVxVy x _ | .orVxVy x _ | .andVxVy x _ | .xorVxVy x _
  | .rndVxKk x _ | .ldVxDt x | .ldVxK x => [x]
  | .addVxVy x _ | .subVxVy x _ | .shrVx x | .subnVxVy x _ | .shlVx x => [x, flagReg]
  | .drwVxVyN _ _ _ => [flagReg]
  | .ldVxMem x => (List.finRange 16).filter (fun r => r ≤ x)
  | .cls | .ret | .jp _ | .call _ | .seVxKk _ _ | .sneVxKk _ _ | .seVxVy _ _ | .sneVxVy _ _
  | .ldINnn _ | .jpV0Nnn _ | .skpVx _ | .sknpVx _ | .ldDtVx _ | .ldStVx _ | .addIVx _ | .ldFVx _
  | .ldBVx _ | .ldMemVx _ => []

/-- The six instructions that write `VF` as a flag (R22). -/
def writesFlag : Instr → Bool
  | .addVxVy _ _ | .subVxVy _ _ | .shrVx _ | .subnVxVy _ _ | .shlVx _ | .drwVxVyN _ _ _ => true
  | _ => false

/-- The next `pc` of an instruction that raises no fault: the table of 41_flow.md R101, over the integers. -/
def nextPc (i : Instr) (s : State) : Nat :=
  let skip (taken : Bool) : Nat := if taken then s.pc.toNat + 4 else s.pc.toNat + 2
  let keyIs (x : RegIdx) (b : Bool) : Bool := (s.keys.toList.getD (s.getV x).toNat false) == b
  match i with
  | .ret => (s.stack.toList.getD (s.sp.val - 1) 0).toNat
  | .jp nnn => nnn.toNat
  | .call nnn => nnn.toNat
  | .jpV0Nnn nnn => nnn.toNat + (s.getV 0).toNat
  | .seVxKk x kk => skip (s.getV x == kk)
  | .sneVxKk x kk => skip (s.getV x != kk)
  | .seVxVy x y => skip (s.getV x == s.getV y)
  | .sneVxVy x y => skip (s.getV x != s.getV y)
  | .skpVx x => skip (keyIs x true)
  | .sknpVx x => skip (keyIs x false)
  | .ldVxK _ => if s.keys.toList.any (fun b => b) then s.pc.toNat + 2 else s.pc.toNat
  | _ => s.pc.toNat + 2

/-- The cells of the buffer that a draw-sprite flips: inside the buffer, and their sprite bit is 1 (40_display.md
R92 (a)). The sprite's left edge is `V[x]`, its top edge `V[y]`, its rows are the bytes from `I` upward and bit 7
is leftmost (R91). -/
def inSprite (s : State) (x y : RegIdx) (n : Nibble) (r c : Nat) : Prop :=
  r ≤ 31 ∧ c ≤ 63 ∧ (s.getV y).toNat ≤ r ∧ r < (s.getV y).toNat + n.toNat ∧
    (s.getV x).toNat ≤ c ∧ c < (s.getV x).toNat + 8 ∧
    (readByte s.mem (s.i.toNat + (r - (s.getV y).toNat))).getLsbD (7 - (c - (s.getV x).toNat)) = true

/-- An access of `n` bytes at `I` that is out of bounds: `n > 0` and `I + n - 1 > 0xFFF` (R9, R53). -/
def accessOutOfBounds (s : State) (n : Nat) : Prop := n > 0 ∧ s.i.toNat + n - 1 > 0xFFF

/-- The word with the nibble its row does not examine cleared: `n` in families 5 and 9, `y` in the two shifts
(30_encoding.md R80, R84). -/
def canonicalWord (c : Config) (w : Word) : Word :=
  if fieldOp w = 0x5 ∨ fieldOp w = 0x9 then w &&& 0xFFF0
  else if fieldOp w = 0x8 ∧ (fieldN w = 0x6 ∨ fieldN w = c.shlSubop) then w &&& 0xFF0F
  else w

/-! ### Frames -/

/-- Every general register is unchanged. -/
def keepsRegs (s t : State) : Prop := ∀ r, t.getV r = s.getV r

/-- Every general register is unchanged but those listed. -/
def keepsRegsBut (l : List RegIdx) (s t : State) : Prop := ∀ r, r ∉ l → t.getV r = s.getV r

/-- The address register is unchanged. -/
def keepsIndex (s t : State) : Prop := t.i = s.i

/-- The call stack and its cursor are unchanged. -/
def keepsStack (s t : State) : Prop := t.sp = s.sp ∧ ∀ k : Fin 16, t.stack[k.val] = s.stack[k.val]

/-- Both timers are unchanged. -/
def keepsTimers (s t : State) : Prop := t.dt = s.dt ∧ t.st = s.st

/-- Every byte of memory reads as before. -/
def keepsMem (s t : State) : Prop := ∀ a, readByte t.mem a = readByte s.mem a

/-- Every byte of memory outside the `n` bytes from `a` reads as before. -/
def keepsMemOutside (a n : Nat) (s t : State) : Prop :=
  ∀ b, (b < a ∨ a + n ≤ b) → readByte t.mem b = readByte s.mem b

/-- Every pixel is unchanged. -/
def keepsScreen (s t : State) : Prop := ∀ r c, t.pixel r c = s.pixel r c

/-- The keypad snapshot and the run/fault latch are unchanged. -/
def keepsKeysStatus (s t : State) : Prop := t.keys = s.keys ∧ t.status = s.status

/-- Everything but the general registers and `pc` is unchanged; the model's own count of random bytes too. -/
def keepsAllButRegs (s t : State) : Prop :=
  keepsIndex s t ∧ keepsStack s t ∧ keepsTimers s t ∧ keepsMem s t ∧ keepsScreen s t ∧
    keepsKeysStatus s t ∧ t.draws = s.draws

/-- Everything but the byte-addressed memory and `pc` is unchanged. -/
def keepsAllButMem (s t : State) : Prop :=
  keepsRegs s t ∧ keepsIndex s t ∧ keepsStack s t ∧ keepsTimers s t ∧ keepsScreen s t ∧
    keepsKeysStatus s t ∧ t.draws = s.draws

/-- Everything but `pc` is unchanged. -/
def keepsAllButPc (s t : State) : Prop := keepsRegs s t ∧ keepsAllButRegs s t

end Sys2Proof.Machine
end

