-- ==== Sys2Proof/Certificates/Slice0/Obligations.lean ====
section
/-! DEFINITION. The statements for the provers. Each docstring names the rule of spec/ it formalises. Where it
names a decision `D<n>` the clause is the spec's own choice (92_eei_decisions.md, log entry 15), where it names a
log entry the clause is the model's. Frames are read through the model's own reads of a register, a byte and a
pixel (Safety.lean). -/

open Sys2Proof Sys2Proof.Machine

/-! ### Encoding and decoding -/

/-- Every well-formed instruction is what its word, and its two bytes in front of any others, decode to (R72,
R75; the numbers are decisions D1 and D2, log entry 3), at every value of every operand and under every
configuration. -/
def Obligations.DecodeInvertsEncode : Prop :=
  ∀ (c : Config) (i : Instr), i.wf c = true →
    decodeWord c (encodeWord c i) = .ok i ∧
    ∀ rest, decodeBytes c (encode c i ++ rest) = some (.ok i, rest)

/-- The other direction: a legal word is the canonical word of what it decodes to, but for a nibble that is not
examined (R80, R84, decisions D6 and D28): no examined bit is dropped. -/
def Obligations.EncodeInvertsDecode : Prop :=
  ∀ (c : Config) (w : Word) (i : Instr), c.shlSubopFree = true → decodeWord c w = .ok i →
    encodeWord c i = canonicalWord c w

/-- The decoder is the opcode map (R74, R75): a word decodes to an instruction whose row it satisfies, no word
satisfies two rows, and it is illegal exactly when it satisfies none; the map has 34 rows (R85, decision D4; the
numbers are decisions D1 and D2, log entry 3). -/
def Obligations.DecoderIsTheOpcodeMap : Prop :=
  ∀ c : Config, c.shlSubopFree = true → (opcodeRows c).length = 34 ∧ ∀ w : Word,
    (∀ i, decodeWord c w = .ok i → rowOf c i ∈ opcodeRows c ∧ (rowOf c i).holds w = true) ∧
    (∀ r₁ ∈ opcodeRows c, ∀ r₂ ∈ opcodeRows c, r₁.holds w = true → r₂.holds w = true → r₁ = r₂) ∧
    ((∃ e, decodeWord c w = .error e) ↔ ∀ r ∈ opcodeRows c, r.holds w = false)

/-- R81: with the default parameters the illegal words are exactly the four classes, and executing one raises
`DecodeFailure` with `pc0` and the word, latched with nothing else changed (decisions D1, D2, D4, D5, D10, D11, log
entry 5). -/
def Obligations.IllegalWordsAreExactlyFourClasses : Prop :=
  ∀ w : Word,
    ((∃ e, decodeWord Config.default w = .error e) ↔
      (fieldOp w = 0x0 ∧ w ≠ 0x00E0 ∧ w ≠ 0x00EE) ∨
      (fieldOp w = 0x8 ∧ 9 ≤ (fieldN w).toNat) ∨
      (fieldOp w = 0xE ∧ fieldKk w ≠ 0x9E ∧ fieldKk w ≠ 0xA1) ∨
      (fieldOp w = 0xF ∧ fieldKk w ∉ ([0x07, 0x0A, 0x15, 0x18, 0x1E, 0x29, 0x33, 0x55, 0x65] : List Byte))) ∧
    ∀ s e, s.status = .run → fetch s = some w → decodeWord Config.default w = .error e →
      step s = .next { s with status := .fault (.decodeFailure s.pc w) }

/-- R80: `n` is not examined in families 5 and 9 nor `y` in the two shifts, `x` is always an operand in families
0xE and 0xF, and the canonical encoding has 0 in an unexamined nibble (decision D6, log entry 6). -/
def Obligations.UnexaminedNibblesDoNotMatter : Prop :=
  ∀ (c : Config) (x y : RegIdx) (f : Nibble), c.shlSubopFree = true →
    decodeWord c (formatR 0x5 x (nibbleOf y) f) = .ok (.seVxVy x y) ∧
    decodeWord c (formatR 0x9 x (nibbleOf y) f) = .ok (.sneVxVy x y) ∧
    decodeWord c (formatR 0x8 x f 0x6) = .ok (.shrVx x) ∧
    decodeWord c (formatR 0x8 x f c.shlSubop) = .ok (.shlVx x) ∧
    (∀ kk x' i, fieldOp i = 0xE ∨ fieldOp i = 0xF →
      ((∃ j, decodeWord c (formatI (fieldOp i) x kk) = .ok j) ↔
        ∃ j, decodeWord c (formatI (fieldOp i) x' kk) = .ok j)) ∧
    fieldN (encodeWord c (.seVxVy x y)) = 0 ∧ fieldN (encodeWord c (.sneVxVy x y)) = 0 ∧
    fieldY (encodeWord c (.shrVx x)) = 0 ∧ fieldY (encodeWord c (.shlVx x)) = 0

/-- The sub-opcode of shift-left is the parameter `SHL_SUBOP` (R77): at 0xE, 8xyE shifts and 8xy8 is illegal, at
the default 8 it is the other way round (decision D2, log entry 2). -/
def Obligations.ShiftLeftSubopIsTheParameter : Prop :=
  ∀ (c : Config) (x y : RegIdx),
    (c.shlSubop = 0xE →
      decodeWord c (formatR 0x8 x (nibbleOf y) 0xE) = .ok (.shlVx x) ∧
      decodeWord c (formatR 0x8 x (nibbleOf y) 0x8) = .error .family8) ∧
    (c.shlSubop = 0x8 →
      decodeWord c (formatR 0x8 x (nibbleOf y) 0x8) = .ok (.shlVx x) ∧
      decodeWord c (formatR 0x8 x (nibbleOf y) 0xE) = .error .family8)

/-- A few words written out from R75 and the decode table of 95_test_vectors.md (decisions D1, D2, log entry 3). -/
def Obligations.SampleWordsDecode : Prop :=
  decodeTableWord 16 0x00E0 = some .cls ∧
  decodeTableWord 16 0x1ABC = some (.jp 0xABC) ∧
  decodeTableWord 16 0x72F5 = some (.addVxKk 2 0xF5) ∧
  decodeTableWord 16 0x8AB4 = some (.addVxVy 10 11) ∧
  decodeTableWord 16 0xD125 = some (.drwVxVyN 1 2 5) ∧
  decodeTableWord 16 0xE1A1 = some (.sknpVx 1) ∧
  decodeTableWord 16 0xF129 = some (.ldFVx 1) ∧
  decodeTableWord 16 0x812E = none

/-! ### The cycle -/

/-- R54: fetch is big-endian at any `pc` it can fetch from. That an odd `pc` fetches as an even one does is decision D21
(R24, R56, log entry 15). -/
def Obligations.FetchIsBigEndian : Prop :=
  ∀ s : State, s.pc.toNat ≤ 0xFFE → ∃ w, fetch s = some w ∧
    w.toNat = (readByte s.mem s.pc.toNat).toNat * 256 + (readByte s.mem (s.pc.toNat + 1)).toNat

/-- R100: when the two bytes at `pc` decode to an instruction, a step of a running core is `exec` of it, on the
same state, with nothing added around it. -/
def Obligations.StepRunsTheDecodedInstruction : Prop :=
  ∀ (s : State) (i : Instr), s.status = .run → s.pc.toNat ≤ 0xFFE →
    decodeWord Config.default
      (wordOfBytes (readByte s.mem s.pc.toNat) (readByte s.mem (s.pc.toNat + 1))) = .ok i →
    step s = exec i s

/-- R101 (which the spec derives from R100 and the instruction rules): the table of next-pc, for every instruction
that raises no fault, over the integers, under every configuration and random byte. The row of jump-with-offset, a
sum neither wrapped nor masked, rests on decision D26 (log entry 15). -/
def Obligations.NextPcIsTheTable : Prop :=
  ∀ (c : Config) (rnd : Byte) (s t : State) (i : Instr), nextInstr c s = some i →
    cycle c rnd s = .next t → t.status = .run → t.pc.toNat = nextPc i s

/-- R4, R100 (decision D24): every event runs to completion in every state; no step is refused and none is stuck,
because a fault is a next state (log entry 5). -/
def Obligations.EveryEventAnswersNext : Prop :=
  ∀ (c : Config) (e : Event) (s : State), (∃ t, apply c e s = .next t) ∧ ∃ t, step s = .next t

/-! ### Faults -/

/-- R151: a step of a running core latches a fault exactly under the condition the table gives, with the
information it gives, and no other condition raises one; the default codes are 1 to 6 (decisions D10 and D15). -/
def Obligations.FaultsAreExactlyTheTable : Prop :=
  (∀ (c : Config) (rnd : Byte) (s t : State) (f : FaultReport), c.shlSubopFree = true →
    s.status = .run → cycle c rnd s = .next t → (t.status = .fault f ↔ faultCondition c s f)) ∧
  ∀ p a n k,
    (FaultReport.fetchOutOfBounds p).code Config.defaultFaultCodes = 1 ∧
    (FaultReport.decodeFailure p a).code Config.defaultFaultCodes = 2 ∧
    (FaultReport.memoryOutOfBounds p a n).code Config.defaultFaultCodes = 3 ∧
    (FaultReport.stackOverflow p).code Config.defaultFaultCodes = 4 ∧
    (FaultReport.stackUnderflow p).code Config.defaultFaultCodes = 5 ∧
    (FaultReport.keyIndexOutOfRange p k).code Config.defaultFaultCodes = 6

/-- R152: the first stage to fault wins: a fetch fault comes before decode, a decode fault before execute, and no
instruction can raise two different execute-stage faults, whatever the states it runs in (the spec derives R152
from R100 and R151; that a fault is latched with its report is decision D10, log entry 5). -/
def Obligations.FaultPriorityIsFetchDecodeExecute : Prop :=
  ∀ (c : Config) (rnd : Byte),
    (∀ s : State, s.status = .run → s.pc.toNat ≥ 0xFFF →
      cycle c rnd s = .next { s with status := .fault (.fetchOutOfBounds s.pc) }) ∧
    (∀ (s : State) (w : Word) (e : Reject), s.status = .run → fetch s = some w →
      decodeWord c w = .error e →
      cycle c rnd s = .next { s with status := .fault (.decodeFailure s.pc w) }) ∧
    ∀ (i : Instr) (s₁ s₂ t₁ t₂ : State) (f₁ f₂ : FaultReport), s₁.status = .run → s₂.status = .run →
      execIn c rnd i s₁ = .next t₁ → execIn c rnd i s₂ = .next t₂ →
      t₁.status = .fault f₁ → t₂.status = .fault f₂ →
      f₁.code Config.defaultFaultCodes = f₂.code Config.defaultFaultCodes

/-- R153: faults are precise: the faulting step writes `status` and nothing else, the report names the
instruction's own address, and from then on `STEP`, `TICK`, `LOAD` and `SETKEYS` change nothing (decisions D10,
D11, D27). -/
def Obligations.FaultsArePreciseAndQuiescent : Prop :=
  (∀ (c : Config) (rnd : Byte) (s t : State), s.status = .run → cycle c rnd s = .next t →
    t.status ≠ .run → ∃ f : FaultReport, t = { s with status := .fault f } ∧ f.pc0 = s.pc) ∧
  ∀ (c : Config) (s : State) (f : FaultReport), s.status = .fault f →
    (∀ rnd, cycle c rnd s = .next s) ∧ tick s = s ∧ (∀ bytes, load bytes s = s) ∧ ∀ k, setKeys k s = s

/-- R154: the only event that changes a faulted core is `RESET`, which clears `status` to `RUN` (decisions D10 and
D27, log entry 5). -/
def Obligations.OnlyResetEndsAFault : Prop :=
  ∀ (c : Config) (e : Event) (s t : State) (f : FaultReport), s.status = .fault f →
    apply c e s = .next t → (e = .reset → t.status = .run ∧ t = resetEvent c s) ∧ (e ≠ .reset → t = s)

/-! ### Invariants -/

/-- Every event keeps the canonical form of memory, from every state (the model's own form of `mem`, log entry
12): addresses strictly rising and below 4096 (R50), nothing listed that reads as its reset contents. -/
def Obligations.EveryEventKeepsMemoryCanonical : Prop :=
  (∀ (c : Config) (e : Event) (s t : State), memoryCanonical s → apply c e s = .next t →
    memoryCanonical t) ∧
  ∀ s t : State, memoryCanonical s → step s = .next t → memoryCanonical t

/-- "The largest value any rule can write to `pc` is 0x10FE" (R101), "`pc0 + 2` is at most 0x1000" (R104): every
event keeps these bounds, from every state, so no sum on `pc` ever wraps. The first bound rests on decision D26 (no
masking), the second on D7 (the address call saves). -/
def Obligations.EveryEventKeepsAddressesBounded : Prop :=
  (∀ (c : Config) (e : Event) (s t : State), addressesBounded s → apply c e s = .next t →
    addressesBounded t) ∧
  ∀ s t : State, addressesBounded s → step s = .next t → addressesBounded t

/-- The state after reset meets both invariants, under every font. Its contents are those of R33; that memory is
canonical is said of the model's own form of `mem`, a DESIGN CHOICE (log entry 12), and of no rule of the spec. -/
def Obligations.ResetMeetsTheInvariants : Prop :=
  memoryCanonical State.reset ∧ addressesBounded State.reset ∧
    ∀ c, memoryCanonical (resetWith c) ∧ addressesBounded (resetWith c)

/-- Every state that some schedule of events reaches, with any program loaded, meets both invariants; and two
reachable states whose memories read alike hold the same list. The canonical form is the model's own, a DESIGN
CHOICE (log entry 12); the bounds rest on decisions D7 and D26. -/
def Obligations.ReachableStatesAreCanonical : Prop :=
  (∀ (c : Config) (s : State), Reachable c s → memoryCanonical s ∧ addressesBounded s) ∧
  ∀ (c d : Config) (s t : State), Reachable c s → Reachable d t →
    (∀ a, readByte t.mem a = readByte s.mem a) → t.mem = s.mem

/-! ### What the machine as a whole may write -/

/-- R22: a step changes no general register but those its instruction writes, and the six flag writers leave
0x00 or 0x01 in `VF` where they raise no fault. -/
def Obligations.StepWritesOnlyItsRegisters : Prop :=
  ∀ (c : Config) (rnd : Byte) (s t : State) (i : Instr), nextInstr c s = some i →
    cycle c rnd s = .next t →
    keepsRegsBut (writesRegs i) s t ∧
    (writesFlag i = true → t.status = .run → t.getV flagReg = 0 ∨ t.getV flagReg = 1)

/-- R29, R176: `fb` changes only in clear-display and draw-sprite; no other event but `RESET` changes it. -/
def Obligations.OnlyDisplayInstructionsChangePixels : Prop :=
  ∀ (c : Config) (e : Event) (s t : State), apply c e s = .next t → e ≠ .reset → ¬keepsScreen s t →
    (∃ rnd, e = .step rnd) ∧
      (nextInstr c s = some .cls ∨ ∃ x y n, nextInstr c s = some (.drwVxVyN x y n))

/-- R50, R58: in a step only store-bcd and store-registers change memory, and only the bytes they store to. -/
def Obligations.OnlyStoresChangeMemory : Prop :=
  ∀ (c : Config) (rnd : Byte) (s t : State) (a : Nat), cycle c rnd s = .next t →
    readByte t.mem a ≠ readByte s.mem a →
    ∃ x, (nextInstr c s = some (.ldBVx x) ∧ s.i.toNat ≤ a ∧ a < s.i.toNat + 3) ∨
      (nextInstr c s = some (.ldMemVx x) ∧ s.i.toNat ≤ a ∧ a < s.i.toNat + (x.val + 1))

/-- R23, R25, R26: only three instructions write `I`, only call writes the stack, only call and return move `sp`. -/
def Obligations.OnlyTheirInstructionsChangeIndexAndStack : Prop :=
  ∀ (c : Config) (rnd : Byte) (s t : State), cycle c rnd s = .next t →
    (t.i ≠ s.i → (∃ nnn, nextInstr c s = some (.ldINnn nnn)) ∨ (∃ x, nextInstr c s = some (.addIVx x)) ∨
      ∃ x, nextInstr c s = some (.ldFVx x)) ∧
    (t.stack ≠ s.stack → ∃ nnn, nextInstr c s = some (.call nnn)) ∧
    (t.sp ≠ s.sp → (∃ nnn, nextInstr c s = some (.call nnn)) ∨ nextInstr c s = some .ret)

/-- R27, R30, R158, R160: a step never decrements a timer: it changes `DT` and `ST` only by their own
instructions; and it never changes the keypad snapshot (decisions D16 and D25). -/
def Obligations.StepKeepsKeysAndTimers : Prop :=
  ∀ (c : Config) (rnd : Byte) (s t : State), cycle c rnd s = .next t →
    t.keys = s.keys ∧
    (t.dt ≠ s.dt → ∃ x, nextInstr c s = some (.ldDtVx x) ∧ t.dt = s.getV x) ∧
    (t.st ≠ s.st → ∃ x, nextInstr c s = some (.ldStVx x) ∧ t.st = s.getV x)

/-! ### Display -/

/-- R90: clear-display sets every pixel to unlit and changes nothing else but `pc`; `VF` is not written. -/
def Obligations.ClearDisplayClearsEveryPixel : Prop :=
  ∀ s : State, ∃ t, exec .cls s = .next t ∧ (∀ r c, t.pixel r c = false) ∧ t.pc = s.pc + 2 ∧
    keepsRegs s t ∧ keepsIndex s t ∧ keepsStack s t ∧ keepsTimers s t ∧ keepsMem s t ∧
    keepsKeysStatus s t ∧ t.draws = s.draws

/-- R91: the drawing loop flips exactly the sprite's cells inside the buffer, `VF` is 1 exactly when one of them
was lit and 0 otherwise, everything else is unchanged; an access out of bounds faults with nothing drawn. Clipping
without wrap and bit 7 leftmost are decisions D12 and D13; that the fault is latched with its report and changes
nothing else is D10 and D11 (log entry 5). -/
def Obligations.DrawSpriteFlipsExactlyItsCells : Prop :=
  ∀ (x y : RegIdx) (n : Nibble) (s : State),
    (accessOutOfBounds s n.toNat → exec (.drwVxVyN x y n) s =
      .next { s with status := .fault (.memoryOutOfBounds s.pc s.i n.toNat) }) ∧
    (¬accessOutOfBounds s n.toNat → ∃ t, exec (.drwVxVyN x y n) s = .next t ∧
      (∀ r c, t.pixel r c ≠ s.pixel r c ↔ inSprite s x y n r c) ∧
      (t.getV flagReg = 1 ↔ ∃ r c, inSprite s x y n r c ∧ s.pixel r c = true) ∧
      (t.getV flagReg = 0 ↔ ¬∃ r c, inSprite s x y n r c ∧ s.pixel r c = true) ∧
      t.pc = s.pc + 2 ∧ keepsRegsBut [flagReg] s t ∧ keepsIndex s t ∧ keepsStack s t ∧
      keepsTimers s t ∧ keepsMem s t ∧ keepsKeysStatus s t ∧ t.draws = s.draws)

/-- R92: one draw flips exactly the cells of S, a second draw of the same sprite at the same place restores every
pixel, the first flag is "S meets the lit cells" and the second "S meets the unlit cells", and no cell outside
the sprite's rows and columns changes. The second draw starts in any state with the first one's buffer and
the same `I`, bytes and coordinates. The spec derives R92 from R91 (decisions D12 and D13). -/
def Obligations.DrawingTwiceRestoresTheScreen : Prop :=
  ∀ (x y : RegIdx) (n : Nibble) (s t s₂ u : State), ¬accessOutOfBounds s n.toNat →
    exec (.drwVxVyN x y n) s = .next t →
    s₂.fb = t.fb → s₂.i = s.i → s₂.getV x = s.getV x → s₂.getV y = s.getV y →
    (∀ k < n.toNat, readByte s₂.mem (s.i.toNat + k) = readByte s.mem (s.i.toNat + k)) →
    exec (.drwVxVyN x y n) s₂ = .next u →
    (∀ r c, t.pixel r c ≠ s.pixel r c ↔ inSprite s x y n r c) ∧
    (∀ r c, u.pixel r c = s.pixel r c) ∧
    (t.getV flagReg = 1 ↔ ∃ r c, inSprite s x y n r c ∧ s.pixel r c = true) ∧
    (u.getV flagReg = 1 ↔ ∃ r c, inSprite s x y n r c ∧ s.pixel r c = false) ∧
    ∀ r c, ¬((s.getV y).toNat ≤ r ∧ r < (s.getV y).toNat + n.toNat ∧
        (s.getV x).toNat ≤ c ∧ c ≤ (s.getV x).toNat + 7) → t.pixel r c = s.pixel r c

/-! ### Control transfer -/

/-- R102: return takes the popped address as `pc` with no further advance; on an empty stack it raises
`StackUnderflow`. That the popped entry stays is decision D22 (R26, log entry 15); that the fault is latched with
its report and changes nothing else is D10 and D11 (log entry 5). -/
def Obligations.ReturnPopsTheSavedAddress : Prop :=
  ∀ s : State,
    (s.sp = 0 → exec .ret s = .next { s with status := .fault (.stackUnderflow s.pc) }) ∧
    ∀ k : Fin 16, s.sp.val = k.val + 1 → ∃ t, exec .ret s = .next t ∧
      t.pc = s.stack[k.val] ∧ t.sp.val = k.val ∧ (∀ j : Fin 16, t.stack[j.val] = s.stack[j.val]) ∧
      keepsRegs s t ∧ keepsIndex s t ∧ keepsTimers s t ∧ keepsMem s t ∧ keepsScreen s t ∧
      keepsKeysStatus s t ∧ t.draws = s.draws

/-- R104: call saves the address of the instruction after it, `pc0 + 2`, and jumps to `nnn`; on a full stack it
raises `StackOverflow` and writes nothing. That `pc0 + 2` is saved is decision D7; that the fault is latched with its
report and changes nothing else is D10 and D11 (log entry 5). -/
def Obligations.CallPushesTheReturnAddress : Prop :=
  ∀ (nnn : Addr12) (s : State),
    (s.sp = 16 → exec (.call nnn) s = .next { s with status := .fault (.stackOverflow s.pc) }) ∧
    ∀ k : Fin 16, s.sp.val = k.val → ∃ t, exec (.call nnn) s = .next t ∧
      t.stack[k.val] = s.pc + 2 ∧ (∀ j : Fin 16, j ≠ k → t.stack[j.val] = s.stack[j.val]) ∧
      t.sp.val = k.val + 1 ∧ t.pc.toNat = nnn.toNat ∧
      keepsRegs s t ∧ keepsIndex s t ∧ keepsTimers s t ∧ keepsMem s t ∧ keepsScreen s t ∧
      keepsKeysStatus s t ∧ t.draws = s.draws

/-- "A call followed immediately by a return restores the program counter to the instruction immediately after
the call" (95_test_vectors.md S8, R102, R104), and the depth of the stack, whatever runs in between that keeps
the stack (decision D7). -/
def Obligations.CallThenReturnComesBack : Prop :=
  ∀ (nnn : Addr12) (s t t₂ : State), s.sp ≠ 16 → exec (.call nnn) s = .next t → keepsStack t t₂ →
    ∃ u, exec .ret t₂ = .next u ∧ u.pc = s.pc + 2 ∧ u.sp = s.sp

/-- R103: jump sets `pc` to `nnn`, with no advance after it, and changes nothing else. -/
def Obligations.JumpSetsThePc : Prop :=
  ∀ (nnn : Addr12) (s : State), ∃ t, exec (.jp nnn) s = .next t ∧ t.pc.toNat = nnn.toNat ∧ keepsAllButPc s t

/-- R109: jump-with-offset sets `pc` to the plain integer sum of `nnn` and `V[0]`, at most 0x10FE (decision D26:
neither wrapped nor masked), and changes nothing else. -/
def Obligations.JumpWithOffsetAddsV0 : Prop :=
  ∀ (nnn : Addr12) (s : State), ∃ t, exec (.jpV0Nnn nnn) s = .next t ∧
    t.pc.toNat = nnn.toNat + (s.getV 0).toNat ∧ t.pc.toNat ≤ 0x10FE ∧ keepsAllButPc s t

/-- R105 to R108: the four skips on register values move `pc` by 4 where the condition holds, by 2 otherwise,
and change nothing else. -/
def Obligations.SkipsOnRegisters : Prop :=
  ∀ (x y : RegIdx) (kk : Byte) (s : State),
    (∃ t, exec (.seVxKk x kk) s = .next t ∧ keepsAllButPc s t ∧
      (s.getV x = kk → t.pc = s.pc + 4) ∧ (s.getV x ≠ kk → t.pc = s.pc + 2)) ∧
    (∃ t, exec (.sneVxKk x kk) s = .next t ∧ keepsAllButPc s t ∧
      (s.getV x ≠ kk → t.pc = s.pc + 4) ∧ (s.getV x = kk → t.pc = s.pc + 2)) ∧
    (∃ t, exec (.seVxVy x y) s = .next t ∧ keepsAllButPc s t ∧
      (s.getV x = s.getV y → t.pc = s.pc + 4) ∧ (s.getV x ≠ s.getV y → t.pc = s.pc + 2)) ∧
    ∃ t, exec (.sneVxVy x y) s = .next t ∧ keepsAllButPc s t ∧
      (s.getV x ≠ s.getV y → t.pc = s.pc + 4) ∧ (s.getV x = s.getV y → t.pc = s.pc + 2)

/-! ### Register arithmetic and logic -/

/-- R111, R112: load-immediate and add-immediate, the sum modulo 256 with no flag. -/
def Obligations.ImmediateForms : Prop :=
  ∀ (x : RegIdx) (kk : Byte) (s : State),
    (∃ t, exec (.ldVxKk x kk) s = .next t ∧ t.getV x = kk ∧ t.pc = s.pc + 2 ∧
      keepsRegsBut [x] s t ∧ keepsAllButRegs s t) ∧
    ∃ t, exec (.addVxKk x kk) s = .next t ∧
      (t.getV x).toNat = ((s.getV x).toNat + kk.toNat) % 256 ∧ t.pc = s.pc + 2 ∧
      keepsRegsBut [x] s t ∧ keepsAllButRegs s t

/-- R113 to R116: assign, and the three logical operations bit by bit; `VF` is left alone. -/
def Obligations.AssignAndLogic : Prop :=
  ∀ (x y : RegIdx) (s : State),
    (∃ t, exec (.ldVxVy x y) s = .next t ∧ t.getV x = s.getV y ∧ t.pc = s.pc + 2 ∧
      keepsRegsBut [x] s t ∧ keepsAllButRegs s t) ∧
    (∃ t, exec (.orVxVy x y) s = .next t ∧
      (∀ b, (t.getV x).getLsbD b = ((s.getV x).getLsbD b || (s.getV y).getLsbD b)) ∧ t.pc = s.pc + 2 ∧
      keepsRegsBut [x] s t ∧ keepsAllButRegs s t) ∧
    (∃ t, exec (.andVxVy x y) s = .next t ∧
      (∀ b, (t.getV x).getLsbD b = ((s.getV x).getLsbD b && (s.getV y).getLsbD b)) ∧ t.pc = s.pc + 2 ∧
      keepsRegsBut [x] s t ∧ keepsAllButRegs s t) ∧
    ∃ t, exec (.xorVxVy x y) s = .next t ∧
      (∀ b, (t.getV x).getLsbD b = ((s.getV x).getLsbD b ^^ (s.getV y).getLsbD b)) ∧ t.pc = s.pc + 2 ∧
      keepsRegsBut [x] s t ∧ keepsAllButRegs s t

/-- R117: add-with-carry, over the integers, the flag written last (where `x = 0xF` that is decision D8). -/
def Obligations.AddWithCarry : Prop :=
  ∀ (x y : RegIdx) (s : State), ∃ t, exec (.addVxVy x y) s = .next t ∧
    (x ≠ flagReg → (t.getV x).toNat = ((s.getV x).toNat + (s.getV y).toNat) % 256) ∧
    (t.getV flagReg).toNat = (if (s.getV x).toNat + (s.getV y).toNat > 255 then 1 else 0) ∧
    t.pc = s.pc + 2 ∧ keepsRegsBut [x, flagReg] s t ∧ keepsAllButRegs s t

/-- R118, R120: the two subtractions, over the integers; the flag is the strict comparison, written last
(R120's strictness is decision D9, the write order decision D8). -/
def Obligations.SubtractWithNotBorrow : Prop :=
  ∀ (x y : RegIdx) (s : State),
    (∃ t, exec (.subVxVy x y) s = .next t ∧
      (x ≠ flagReg → ((t.getV x).toNat : Int) = ((s.getV x).toNat - (s.getV y).toNat : Int) % 256) ∧
      (t.getV flagReg).toNat = (if (s.getV x).toNat > (s.getV y).toNat then 1 else 0) ∧
      t.pc = s.pc + 2 ∧ keepsRegsBut [x, flagReg] s t ∧ keepsAllButRegs s t) ∧
    ∃ t, exec (.subnVxVy x y) s = .next t ∧
      (x ≠ flagReg → ((t.getV x).toNat : Int) = ((s.getV y).toNat - (s.getV x).toNat : Int) % 256) ∧
      (t.getV flagReg).toNat = (if (s.getV y).toNat > (s.getV x).toNat then 1 else 0) ∧
      t.pc = s.pc + 2 ∧ keepsRegsBut [x, flagReg] s t ∧ keepsAllButRegs s t

/-- R119, R121: the two shifts by one, over the integers; shift-right's flag is the bit shifted out, shift-left's
the bit that `SHL_FLAG_BIT` names, the low bit by default (decision D3, log entry 10; the write order is D8). -/
def Obligations.ShiftsByOne : Prop :=
  ∀ (x : RegIdx) (s : State),
    (∃ t, exec (.shrVx x) s = .next t ∧
      (x ≠ flagReg → (t.getV x).toNat = (s.getV x).toNat / 2) ∧
      (t.getV flagReg).toNat = (s.getV x).toNat % 2 ∧
      t.pc = s.pc + 2 ∧ keepsRegsBut [x, flagReg] s t ∧ keepsAllButRegs s t) ∧
    (∃ t, exec (.shlVx x) s = .next t ∧
      (x ≠ flagReg → (t.getV x).toNat = (s.getV x).toNat * 2 % 256) ∧
      (t.getV flagReg).toNat = (s.getV x).toNat % 2 ∧
      t.pc = s.pc + 2 ∧ keepsRegsBut [x, flagReg] s t ∧ keepsAllButRegs s t) ∧
    ∀ (c : Config) (rnd : Byte), ∃ t, execIn c rnd (.shlVx x) s = .next t ∧
      (x ≠ flagReg → (t.getV x).toNat = (s.getV x).toNat * 2 % 256) ∧
      (t.getV flagReg).toNat =
        (match c.shlFlagBit with | .low => (s.getV x).toNat % 2 | .high => (s.getV x).toNat / 128) ∧
      t.pc = s.pc + 2 ∧ keepsRegsBut [x, flagReg] s t ∧ keepsAllButRegs s t

/-- R110: where `x = 0xF` the flag, computed from the old values, is what remains in `VF`, in all five
flag-setting instructions (decision D8). -/
def Obligations.FlagSurvivesInVF : Prop :=
  ∀ (y : RegIdx) (s : State) (c : Config) (rnd : Byte),
    (∃ t, exec (.addVxVy flagReg y) s = .next t ∧
      t.getV flagReg = flagByte (carryOut (s.getV flagReg) (s.getV y))) ∧
    (∃ t, exec (.subVxVy flagReg y) s = .next t ∧
      t.getV flagReg = flagByte (notBorrow (s.getV flagReg) (s.getV y))) ∧
    (∃ t, exec (.shrVx flagReg) s = .next t ∧ t.getV flagReg = flagByte (shrFlag (s.getV flagReg))) ∧
    (∃ t, exec (.subnVxVy flagReg y) s = .next t ∧
      t.getV flagReg = flagByte (notBorrow (s.getV y) (s.getV flagReg))) ∧
    ∃ t, execIn c rnd (.shlVx flagReg) s = .next t ∧
      t.getV flagReg = flagByte (shlFlag c.shlFlagBit (s.getV flagReg))

/-- R122: random-and-mask, for every random byte; the result has no bit outside `kk`. `exec` runs it at the free
byte of the draw (decision D19, log entry 1), of which nothing is known. -/
def Obligations.RandomAndMaskForEveryByte : Prop :=
  ∀ (x : RegIdx) (kk : Byte) (s : State),
    (∀ (c : Config) (rnd : Byte), ∃ t, execIn c rnd (.rndVxKk x kk) s = .next t ∧
      (∀ b, (t.getV x).getLsbD b = (rnd.getLsbD b && kk.getLsbD b)) ∧ t.pc = s.pc + 2 ∧
      keepsRegsBut [x] s t ∧ keepsIndex s t ∧ keepsStack s t ∧ keepsTimers s t ∧ keepsMem s t ∧
      keepsScreen s t ∧ keepsKeysStatus s t) ∧
    ∃ (rnd : Byte) (t : State), exec (.rndVxKk x kk) s = .next t ∧ t.getV x = rnd &&& kk ∧
      (∀ b, kk.getLsbD b = false → (t.getV x).getLsbD b = false) ∧ t.pc = s.pc + 2 ∧
      keepsRegsBut [x] s t ∧ keepsIndex s t ∧ keepsStack s t ∧ keepsTimers s t ∧ keepsMem s t ∧
      keepsScreen s t ∧ keepsKeysStatus s t

/-! ### Address register and memory -/

/-- R130, R131: load-address-register and add-to-address-register, over the integers; neither touches `VF`. -/
def Obligations.WritersOfTheAddressRegister : Prop :=
  ∀ (nnn : Addr12) (x : RegIdx) (s : State),
    (∃ t, exec (.ldINnn nnn) s = .next t ∧ t.i.toNat = nnn.toNat ∧ t.pc = s.pc + 2 ∧
      keepsAllButMem { s with i := t.i } t ∧ keepsMem s t) ∧
    ∃ t, exec (.addIVx x) s = .next t ∧ t.i.toNat = (s.i.toNat + (s.getV x).toNat) % 65536 ∧
      t.pc = s.pc + 2 ∧ keepsAllButMem { s with i := t.i } t ∧ keepsMem s t

/-- R132: sprite-address-for-digit sets `I` to five times the whole of `V[x]`, over the integers (that `V[x]` is
not masked is decision D14), and touches neither `VF` nor memory; for a digit that is its glyph's address, where
`RESET` left the glyph's five bytes of `FONT`. -/
def Obligations.DigitSpriteAddress : Prop :=
  ∀ (x : RegIdx) (s : State), ∃ t, exec (.ldFVx x) s = .next t ∧ t.i.toNat = (s.getV x).toNat * 5 ∧
    t.pc = s.pc + 2 ∧ keepsAllButMem { s with i := t.i } t ∧ keepsMem s t ∧
    ∀ (c : Config) (d : Fin 16) (k : Fin 5), (s.getV x).toNat = d.val →
      readByte (resetWith c).mem (t.i.toNat + k.val) = c.font[d.val][k.val]

/-- R133: store-bcd writes the hundreds, tens and units of `V[x]` at `I`, `I+1`, `I+2`: three digits 0 to 9 that
make up the value; out of bounds it faults and writes no byte. That the fault is latched with its report and changes
nothing else is decisions D10 and D11 (log entry 5). -/
def Obligations.StoreBcdWritesThreeDigits : Prop :=
  ∀ (x : RegIdx) (s : State),
    (accessOutOfBounds s 3 → exec (.ldBVx x) s =
      .next { s with status := .fault (.memoryOutOfBounds s.pc s.i 3) }) ∧
    (¬accessOutOfBounds s 3 → ∃ t, exec (.ldBVx x) s = .next t ∧
      (∃ h m u : Nat, h ≤ 2 ∧ m ≤ 9 ∧ u ≤ 9 ∧ h * 100 + m * 10 + u = (s.getV x).toNat ∧
        (readByte t.mem s.i.toNat).toNat = h ∧ (readByte t.mem (s.i.toNat + 1)).toNat = m ∧
        (readByte t.mem (s.i.toNat + 2)).toNat = u) ∧
      keepsMemOutside s.i.toNat 3 s t ∧ t.pc = s.pc + 2 ∧ keepsAllButMem s t)

/-- R134: store-registers stores `V[0]` to `V[x]`, inclusive, from `I` upward, and leaves `I` alone; out of bounds
it faults and writes no byte. That the fault is latched with its report and changes nothing else is decisions D10 and
D11 (log entry 5). -/
def Obligations.StoreRegistersThroughX : Prop :=
  ∀ (x : RegIdx) (s : State),
    (accessOutOfBounds s (x.val + 1) → exec (.ldMemVx x) s =
      .next { s with status := .fault (.memoryOutOfBounds s.pc s.i (x.val + 1)) }) ∧
    (¬accessOutOfBounds s (x.val + 1) → ∃ t, exec (.ldMemVx x) s = .next t ∧
      (∀ r : RegIdx, r ≤ x → readByte t.mem (s.i.toNat + r.val) = s.getV r) ∧
      keepsMemOutside s.i.toNat (x.val + 1) s t ∧ t.pc = s.pc + 2 ∧ keepsAllButMem s t)

/-- R135: load-registers loads `V[0]` to `V[x]`, inclusive, from `I` upward, and leaves `I`, memory and the
registers above `x` alone; out of bounds it faults and writes no register. That the fault is latched with its report
and changes nothing else is decisions D10 and D11 (log entry 5). -/
def Obligations.LoadRegistersThroughX : Prop :=
  ∀ (x : RegIdx) (s : State),
    (accessOutOfBounds s (x.val + 1) → exec (.ldVxMem x) s =
      .next { s with status := .fault (.memoryOutOfBounds s.pc s.i (x.val + 1)) }) ∧
    (¬accessOutOfBounds s (x.val + 1) → ∃ t, exec (.ldVxMem x) s = .next t ∧
      (∀ r : RegIdx, r ≤ x → t.getV r = readByte s.mem (s.i.toNat + r.val)) ∧
      (∀ r : RegIdx, x < r → t.getV r = s.getV r) ∧ t.pc = s.pc + 2 ∧ keepsAllButRegs s t)

/-- "Storing `V[0..=x]` to memory then loading registers `0..=x` from the same memory region reproduces the
original register values" (95_test_vectors.md S7, R134, R135): the load runs in any state with the same `I` and
the stored memory, whatever its registers. -/
def Obligations.StoreThenLoadGivesTheRegistersBack : Prop :=
  ∀ (x : RegIdx) (s t t₂ : State), ¬accessOutOfBounds s (x.val + 1) → exec (.ldMemVx x) s = .next t →
    t₂.i = s.i → keepsMem t t₂ →
    ∃ u, exec (.ldVxMem x) t₂ = .next u ∧ ∀ r : RegIdx, r ≤ x → u.getV r = s.getV r

/-- R63: a store is seen by the fetch of the very next step: after a store of registers, a fetch from inside the
stored bytes gives two of the registers, high byte first, and the next step decodes that word (the spec derives R63 from R50
and R61). -/
def Obligations.StoreIsSeenByTheNextFetch : Prop :=
  ∀ (x k m : RegIdx) (s t : State), m.val = k.val + 1 → m ≤ x → ¬accessOutOfBounds s (x.val + 1) →
    exec (.ldMemVx x) s = .next t → t.pc.toNat = s.i.toNat + k.val → s.status = .run →
    fetch t = some (wordOfBytes (s.getV k) (s.getV m)) ∧
    ∀ i, decodeWord Config.default (wordOfBytes (s.getV k) (s.getV m)) = .ok i → step t = exec i t

/-! ### Keypad and timers -/

/-- R140, R141: the skips on a key; a register above 15 names no key and faults (decision D15). That the fault is
latched with its report and changes nothing else is D10 and D11 (log entry 5). -/
def Obligations.SkipsOnKeys : Prop :=
  ∀ (x : RegIdx) (s : State),
    ((s.getV x).toNat > 15 →
      exec (.skpVx x) s = .next { s with status := .fault (.keyIndexOutOfRange s.pc (s.getV x)) } ∧
      exec (.sknpVx x) s = .next { s with status := .fault (.keyIndexOutOfRange s.pc (s.getV x)) }) ∧
    ∀ k : Fin 16, (s.getV x).toNat = k.val →
      (∃ t, exec (.skpVx x) s = .next t ∧ keepsAllButPc s t ∧
        (s.keys[k.val] = true → t.pc = s.pc + 4) ∧ (s.keys[k.val] = false → t.pc = s.pc + 2)) ∧
      ∃ t, exec (.sknpVx x) s = .next t ∧ keepsAllButPc s t ∧
        (s.keys[k.val] = false → t.pc = s.pc + 4) ∧ (s.keys[k.val] = true → t.pc = s.pc + 2)

/-- R143: block-until-key changes nothing, `pc` included, while no key is down; else it takes the lowest-indexed
pressed key and advances (decision D18). -/
def Obligations.BlockUntilKeyTakesTheLowest : Prop :=
  ∀ (x : RegIdx) (s : State),
    ((∀ k : Fin 16, s.keys[k.val] = false) → exec (.ldVxK x) s = .next s) ∧
    ∀ k : Fin 16, s.keys[k.val] = true → (∀ j : Fin 16, j < k → s.keys[j.val] = false) →
      ∃ t, exec (.ldVxK x) s = .next t ∧ (t.getV x).toNat = k.val ∧ t.pc = s.pc + 2 ∧
        keepsRegsBut [x] s t ∧ keepsAllButRegs s t

/-- R142, R144, R145: reading the delay timer and setting the two timers; the sound signal of R162 is on from the
step that sets a sound timer other than 0, and off at once where it sets 0. -/
def Obligations.TimerInstructions : Prop :=
  ∀ (x : RegIdx) (s : State),
    (∃ t, exec (.ldVxDt x) s = .next t ∧ t.getV x = s.dt ∧ t.pc = s.pc + 2 ∧
      keepsRegsBut [x] s t ∧ keepsAllButRegs s t) ∧
    (∃ t, exec (.ldDtVx x) s = .next t ∧ t.dt = s.getV x ∧ t.st = s.st ∧ t.pc = s.pc + 2 ∧
      keepsAllButPc { s with dt := t.dt } t) ∧
    ∃ t, exec (.ldStVx x) s = .next t ∧ t.st = s.getV x ∧ t.dt = s.dt ∧ t.pc = s.pc + 2 ∧
      (t.soundOn = true ↔ s.getV x ≠ 0) ∧ keepsAllButPc { s with st := t.st } t

/-! ### The other events -/

/-- R157: a tick takes 1 from each timer that is not 0, independently, and changes nothing else. "Starting any timer at
value `n`, after `n` ticks it reads 0, and it never reads below 0 regardless of additional ticks": `m` ticks take
`m` from each timer, stopping at 0. That a tick changes nothing in a faulted core is decision D27 (R31, R153, log
entries 5 and 15). -/
def Obligations.TickCountsBothTimersDown : Prop :=
  ∀ s : State,
    (s.status = .run → (tick s).dt.toNat = s.dt.toNat - 1 ∧ (tick s).st.toNat = s.st.toNat - 1 ∧
      tick s = { s with dt := (tick s).dt, st := (tick s).st }) ∧
    (s.status ≠ .run → tick s = s) ∧
    ∀ m : Nat, s.status = .run → (tick^[m] s).dt.toNat = s.dt.toNat - m ∧
      (tick^[m] s).st.toNat = s.st.toNat - m ∧ (tick^[m] s).status = .run

/-- R160: `SETKEYS` writes the 16 flags and nothing else, nothing at all in a faulted core, and the next step sees
the levels it wrote (decisions D25, D27). -/
def Obligations.SetKeysWritesTheSnapshot : Prop :=
  ∀ (k : Vector Bool 16) (s : State),
    (s.status = .run → setKeys k s = { s with keys := k } ∧
      ∀ (x : RegIdx) (j : Fin 16), (s.getV x).toNat = j.val → ∃ t, exec (.skpVx x) (setKeys k s) = .next t ∧
        t.pc = (if k[j.val] then s.pc + 4 else s.pc + 2)) ∧
    (s.status ≠ .run → setKeys k s = s)

/-- R171: `LOAD` writes the program from 0x200 and nothing else, refuses one longer than 3584 bytes without
writing, and is ignored in a faulted core (decisions D23 and D27, log entries 5 and 9). -/
def Obligations.LoadWritesTheProgram : Prop :=
  ∀ (bytes : List Byte) (s : State),
    (s.status = .run → bytes.length ≤ 3584 → loadResult bytes s = .ok ∧
      (∀ k, (h : k < bytes.length) → readByte (load bytes s).mem (0x200 + k) = bytes[k]) ∧
      keepsMemOutside 0x200 bytes.length s (load bytes s) ∧
      load bytes s = { s with mem := (load bytes s).mem }) ∧
    (s.status = .run → bytes.length > 3584 → loadResult bytes s = .romTooLarge ∧ load bytes s = s) ∧
    (s.status ≠ .run → loadResult bytes s = .ignored ∧ load bytes s = s)

/-- R33, R170: `RESET`, in any state and under any font, leaves every field at the value of the table; at the
default configuration it is `State.reset` (that it is accepted at any time is decision D23, `status` D10, `FONT`
D14). -/
def Obligations.ResetLeavesTheTable : Prop :=
  (∀ (c : Config) (s : State),
    (∀ r, (resetEvent c s).getV r = 0) ∧ (resetEvent c s).i = 0 ∧ (resetEvent c s).pc = 0x200 ∧
    (∀ k : Fin 16, (resetEvent c s).stack[k.val] = 0) ∧ (resetEvent c s).sp = 0 ∧
    (resetEvent c s).dt = 0 ∧ (resetEvent c s).st = 0 ∧
    (∀ (d : Fin 16) (k : Fin 5), readByte (resetEvent c s).mem (d.val * 5 + k.val) = c.font[d.val][k.val]) ∧
    (∀ a, 0x50 ≤ a → readByte (resetEvent c s).mem a = 0) ∧
    (∀ r k, (resetEvent c s).pixel r k = false) ∧
    (∀ k : Fin 16, (resetEvent c s).keys[k.val] = false) ∧ (resetEvent c s).status = .run) ∧
  resetWith Config.default = State.reset

/-- R172: after `RESET` and `LOAD` of a program of at least two bytes the core runs with `pc = 0x200` and the
first word fetched is the program's first two bytes; stepped with no program it raises `DecodeFailure` on the
word 0x0000 at 0x200, whatever the random byte (the spec derives R172; that 0x0000 is illegal is decision D4, that the
fault is latched with its report D10, log entry 5). -/
def Obligations.BootFetchesTheProgram : Prop :=
  (∀ (c : Config) (s : State) (hi lo : Byte) (rest : List Byte), rest.length + 2 ≤ 3584 →
    ∃ t, applyAll c (bootEvents (hi :: lo :: rest)) s = .next t ∧ t.status = .run ∧ t.pc = 0x200 ∧
      fetch t = some (wordOfBytes hi lo)) ∧
  ∀ (s : State) (rnd : Byte), ∃ t, applyAll Config.default [.reset, .step rnd] s = .next t ∧
    t.status = .fault (.decodeFailure 0x200 0x0000) ∧ t.pc = 0x200

/-- R173: a finished program, a jump to itself at `pc` (decision D29), stays as it is under every further step, and
is still finished after a tick, although its timers count. -/
def Obligations.FinishedProgramsStay : Prop :=
  ∀ (c : Config) (rnd : Byte) (s : State), Finished c s →
    cycle c rnd s = .next s ∧ s.status = .run ∧ Finished c (tick s)

/-- R159, R165: a core that waits for a key is left as it is by every step, still waits after a tick although its
timers count down, and leaves the wait at the first step after the host sets a key (decisions D17, D18). -/
def Obligations.WaitingCoreWaitsAndTicks : Prop :=
  ∀ (c : Config) (rnd : Byte) (s : State), Waiting c s →
    cycle c rnd s = .next s ∧ Waiting c (tick s) ∧
    (tick s).dt.toNat = s.dt.toNat - 1 ∧ (tick s).st.toNat = s.st.toNat - 1 ∧
    ∀ k : Vector Bool 16, (∃ j : Fin 16, k[j.val] = true) →
      ∃ t, cycle c rnd (setKeys k s) = .next t ∧ t.pc = s.pc + 2

/-! ### What a step does not look at -/

/-- R100: "`rnd` is a free 8-bit input that only random-and-mask looks at" (decision D19): where the next instruction is
another one, or none, two steps with different random bytes are the same. -/
def Obligations.OnlyRandomAndMaskReadsTheRandomByte : Prop :=
  ∀ (c : Config) (r₁ r₂ : Byte) (s : State), (∀ x kk, nextInstr c s ≠ some (.rndVxKk x kk)) →
    cycle c r₁ s = cycle c r₂ s

/-- R27: `ST` is read by no instruction: from two states that differ in the sound timer only, a step leads to two
states that differ in the sound timer only. -/
def Obligations.NoInstructionReadsTheSoundTimer : Prop :=
  ∀ (c : Config) (rnd b : Byte) (s t : State), cycle c rnd s = .next t →
    ∃ u, cycle c rnd { s with st := b } = .next u ∧ { u with st := t.st } = t ∧ (t.st ≠ s.st → u.st = t.st)

/-- R30, R160: the keypad snapshot (state between events: decision D25) is read by skip-if-key-pressed,
skip-if-key-not-pressed and block-until-key and by no other instruction: where the next instruction is none of the
three, a step does the same under any keys. -/
def Obligations.OnlyKeyInstructionsReadTheKeypad : Prop :=
  ∀ (c : Config) (rnd : Byte) (k : Vector Bool 16) (s t : State),
    (∀ x, nextInstr c s ≠ some (.skpVx x) ∧ nextInstr c s ≠ some (.sknpVx x) ∧
      nextInstr c s ≠ some (.ldVxK x)) →
    cycle c rnd s = .next t → cycle c rnd { s with keys := k } = .next { t with keys := k }
end

