-- ==== Sys2Proof/Laws/Decode.lean ====
section
/-! SUPPORT. The fields of an encoded word (30_encoding.md R71, R72) and which families a word can decode into
(R74). -/

namespace Sys2Proof

/-! ### Words and fields as numbers -/

theorem toNat_append_bytes {m n : Nat} (a : BitVec m) (b : BitVec n) :
    (a ++ b).toNat = a.toNat * 2 ^ n + b.toNat := by
  rw [BitVec.toNat_append, Nat.shiftLeft_eq, Nat.mul_comm, ← Nat.two_pow_add_eq_or_of_lt b.isLt]

theorem toNat_slice (w : Word) (k m : Nat) : (w.extractLsb' k m).toNat = w.toNat / 2 ^ k % 2 ^ m := by
  rw [BitVec.extractLsb'_toNat, Nat.shiftRight_eq_div_pow]

section Fields
variable (op y n : Nibble) (nnn : Addr12) (x : RegIdx) (kk : Byte)

theorem toNat_nibbleOf : (nibbleOf x).toNat = x.val := rfl

theorem toNat_formatA : (formatA op nnn).toNat = op.toNat * 4096 + nnn.toNat :=
  toNat_append_bytes op nnn

theorem toNat_formatI : (formatI op x kk).toNat = op.toNat * 4096 + (x.val * 256 + kk.toNat) := by
  rw [formatI, toNat_append_bytes, toNat_append_bytes, toNat_nibbleOf]
  omega

theorem toNat_formatR :
    (formatR op x y n).toNat = op.toNat * 4096 + (x.val * 256 + (y.toNat * 16 + n.toNat)) := by
  rw [formatR, toNat_append_bytes, toNat_append_bytes, toNat_append_bytes, toNat_nibbleOf]
  omega

/-! ### Fields of the three formats -/

theorem val_regOf : (regOf n).val = n.toNat := rfl

@[simp] theorem regOf_nibbleOf : regOf (nibbleOf x) = x := rfl

@[simp] theorem nibbleOf_regOf : nibbleOf (regOf n) = n := rfl

@[simp] theorem fieldOp_formatA : fieldOp (formatA op nnn) = op := by
  apply BitVec.eq_of_toNat_eq
  rw [fieldOp, toNat_slice, toNat_formatA]; omega
@[simp] theorem fieldNnn_formatA : fieldNnn (formatA op nnn) = nnn := by
  apply BitVec.eq_of_toNat_eq
  rw [fieldNnn, toNat_slice, toNat_formatA]; omega

@[simp] theorem fieldOp_formatI : fieldOp (formatI op x kk) = op := by
  apply BitVec.eq_of_toNat_eq
  rw [fieldOp, toNat_slice, toNat_formatI]; omega
@[simp] theorem fieldX_formatI : fieldX (formatI op x kk) = nibbleOf x := by
  apply BitVec.eq_of_toNat_eq
  rw [fieldX, toNat_slice, toNat_formatI, toNat_nibbleOf]; omega
@[simp] theorem fieldKk_formatI : fieldKk (formatI op x kk) = kk := by
  apply BitVec.eq_of_toNat_eq
  rw [fieldKk, toNat_slice, toNat_formatI]; omega

@[simp] theorem fieldOp_formatR : fieldOp (formatR op x y n) = op := by
  apply BitVec.eq_of_toNat_eq
  rw [fieldOp, toNat_slice, toNat_formatR]; omega
@[simp] theorem fieldX_formatR : fieldX (formatR op x y n) = nibbleOf x := by
  apply BitVec.eq_of_toNat_eq
  rw [fieldX, toNat_slice, toNat_formatR, toNat_nibbleOf]; omega
@[simp] theorem fieldY_formatR : fieldY (formatR op x y n) = y := by
  apply BitVec.eq_of_toNat_eq
  rw [fieldY, toNat_slice, toNat_formatR]; omega
@[simp] theorem fieldN_formatR : fieldN (formatR op x y n) = n := by
  apply BitVec.eq_of_toNat_eq
  rw [fieldN, toNat_slice, toNat_formatR]; omega

end Fields

/-- The family of the two words of family 0 (R76). -/
@[simp] theorem fieldOp_cls : fieldOp 224#16 = 0#4 := by decide
@[simp] theorem fieldOp_ret : fieldOp 238#16 = 0#4 := by decide

/-! ### A word from its fields -/

/-- A word is its family, its `x` and its `kk` (R71). -/
theorem word_eq_formatI (w : Word) : w = formatI (fieldOp w) (regOf (fieldX w)) (fieldKk w) := by
  apply BitVec.eq_of_toNat_eq
  rw [toNat_formatI, val_regOf, fieldOp, fieldX, fieldKk, toNat_slice, toNat_slice, toNat_slice]
  have := w.isLt
  omega

/-- A word is its family and its `nnn` (R71). -/
theorem word_eq_formatA (w : Word) : w = formatA (fieldOp w) (fieldNnn w) := by
  apply BitVec.eq_of_toNat_eq
  rw [toNat_formatA, fieldOp, fieldNnn, toNat_slice, toNat_slice]
  have := w.isLt
  omega

/-- A word is its four nibbles (R71). -/
theorem word_eq_formatR (w : Word) :
    w = formatR (fieldOp w) (regOf (fieldX w)) (fieldY w) (fieldN w) := by
  apply BitVec.eq_of_toNat_eq
  rw [toNat_formatR, val_regOf, fieldOp, fieldX, fieldY, fieldN, toNat_slice, toNat_slice, toNat_slice,
    toNat_slice]
  have := w.isLt
  omega

/-! ### Bytes -/

/-- "word = mem[pc] * 256 + mem[pc+1]" (R54). -/
theorem toNat_wordOfBytes (hi lo : Byte) : (wordOfBytes hi lo).toNat = hi.toNat * 256 + lo.toNat :=
  toNat_append_bytes hi lo

/-- The two bytes of a word put together again, high byte first (R54). -/
@[simp] theorem wordOfBytes_bytes (w : Word) : wordOfBytes (highByte w) (lowByte w) = w := by
  apply BitVec.eq_of_toNat_eq
  rw [toNat_wordOfBytes, highByte, lowByte, toNat_slice, toNat_slice]
  have := w.isLt
  omega

/-! ### The opcode map -/

section Rows
variable (op y n : Nibble) (nnn : Addr12) (x : RegIdx) (kk : Byte) (i : Nat)

theorem getLsbD_formatA :
    (formatA op nnn).getLsbD i = if i < 12 then nnn.getLsbD i else op.getLsbD (i - 12) := by
  exact BitVec.getLsbD_append (x := op) (y := nnn) (i := i)

theorem getLsbD_formatI : (formatI op x kk).getLsbD i =
    if i < 12 then (if i < 8 then kk.getLsbD i else (nibbleOf x).getLsbD (i - 8))
    else op.getLsbD (i - 12) := by
  have h := BitVec.getLsbD_append (x := op) (y := nibbleOf x ++ kk) (i := i)
  rw [BitVec.getLsbD_append (x := nibbleOf x) (y := kk)] at h
  exact h

theorem getLsbD_formatR : (formatR op x y n).getLsbD i =
    if i < 12 then
      (if i < 8 then (if i < 4 then n.getLsbD i else y.getLsbD (i - 4))
       else (nibbleOf x).getLsbD (i - 8))
    else op.getLsbD (i - 12) := by
  have h := BitVec.getLsbD_append (x := op) (y := nibbleOf x ++ (y ++ n)) (i := i)
  rw [BitVec.getLsbD_append (x := nibbleOf x) (y := y ++ n),
    BitVec.getLsbD_append (x := y) (y := n)] at h
  exact h

theorem and_family (w : Word) : w &&& 0xF000 = formatA (fieldOp w) 0 := by
  apply BitVec.eq_of_getLsbD_eq
  intro i hi
  rw [getLsbD_formatA, fieldOp, BitVec.getLsbD_and]
  interval_cases i <;> simp

theorem and_family_n (w : Word) : w &&& 0xF00F = formatR (fieldOp w) 0 0 (fieldN w) := by
  apply BitVec.eq_of_getLsbD_eq
  intro i hi
  rw [getLsbD_formatR, fieldOp, fieldN, nibbleOf, BitVec.getLsbD_and]
  interval_cases i <;> simp

theorem and_family_kk (w : Word) : w &&& 0xF0FF = formatI (fieldOp w) 0 (fieldKk w) := by
  apply BitVec.eq_of_getLsbD_eq
  intro i hi
  rw [getLsbD_formatI, fieldOp, fieldKk, nibbleOf, BitVec.getLsbD_and]
  interval_cases i <;> simp

/-- A row that fixes the family alone holds of a word exactly when the family is its own. -/
theorem family_row_iff (w : Word) : w &&& 0xF000 = formatA op 0 ↔ fieldOp w = op := by
  rw [and_family]
  constructor
  · intro h; simpa using congrArg fieldOp h
  · rintro rfl; rfl

/-- A row that fixes the family and `n`. -/
theorem family_n_row_iff (w : Word) :
    w &&& 0xF00F = formatR op 0 0 n ↔ fieldOp w = op ∧ fieldN w = n := by
  rw [and_family_n]
  constructor
  · intro h
    exact ⟨by simpa using congrArg fieldOp h, by simpa using congrArg fieldN h⟩
  · rintro ⟨rfl, rfl⟩; rfl

/-- A row that fixes the family and `kk`. -/
theorem family_kk_row_iff (w : Word) :
    w &&& 0xF0FF = formatI op 0 kk ↔ fieldOp w = op ∧ fieldKk w = kk := by
  rw [and_family_kk]
  constructor
  · intro h
    exact ⟨by simpa using congrArg fieldOp h, by simpa using congrArg fieldKk h⟩
  · rintro ⟨rfl, rfl⟩; rfl

end Rows

/-! ### What a word must look like to decode into an instruction (R74, R75) -/

/-- The words of each instruction: its format with its family, its selector and its operands; a nibble that is
not examined is any nibble (R80). -/
def wordsOf (c : Config) (w : Word) : Instr → Prop
  | .cls => w = 0x00E0
  | .ret => w = 0x00EE
  | .jp nnn => w = formatA 0x1 nnn
  | .call nnn => w = formatA 0x2 nnn
  | .seVxKk x kk => w = formatI 0x3 x kk
  | .sneVxKk x kk => w = formatI 0x4 x kk
  | .seVxVy x y => ∃ n, w = formatR 0x5 x (nibbleOf y) n
  | .ldVxKk x kk => w = formatI 0x6 x kk
  | .addVxKk x kk => w = formatI 0x7 x kk
  | .ldVxVy x y => w = formatR 0x8 x (nibbleOf y) 0x0
  | .orVxVy x y => w = formatR 0x8 x (nibbleOf y) 0x1
  | .andVxVy x y => w = formatR 0x8 x (nibbleOf y) 0x2
  | .xorVxVy x y => w = formatR 0x8 x (nibbleOf y) 0x3
  | .addVxVy x y => w = formatR 0x8 x (nibbleOf y) 0x4
  | .subVxVy x y => w = formatR 0x8 x (nibbleOf y) 0x5
  | .shrVx x => ∃ y, w = formatR 0x8 x y 0x6
  | .subnVxVy x y => w = formatR 0x8 x (nibbleOf y) 0x7
  | .shlVx x => ∃ y, w = formatR 0x8 x y c.shlSubop
  | .sneVxVy x y => ∃ n, w = formatR 0x9 x (nibbleOf y) n
  | .ldINnn nnn => w = formatA 0xA nnn
  | .jpV0Nnn nnn => w = formatA 0xB nnn
  | .rndVxKk x kk => w = formatI 0xC x kk
  | .drwVxVyN x y n => w = formatR 0xD x (nibbleOf y) n
  | .skpVx x => w = formatI 0xE x 0x9E
  | .sknpVx x => w = formatI 0xE x 0xA1
  | .ldVxDt x => w = formatI 0xF x 0x07
  | .ldVxK x => w = formatI 0xF x 0x0A
  | .ldDtVx x => w = formatI 0xF x 0x15
  | .ldStVx x => w = formatI 0xF x 0x18
  | .addIVx x => w = formatI 0xF x 0x1E
  | .ldFVx x => w = formatI 0xF x 0x29
  | .ldBVx x => w = formatI 0xF x 0x33
  | .ldMemVx x => w = formatI 0xF x 0x55
  | .ldVxMem x => w = formatI 0xF x 0x65

theorem nibble_cases (n : Nibble) : n = 0x0 ∨ n = 0x1 ∨ n = 0x2 ∨ n = 0x3 ∨ n = 0x4 ∨ n = 0x5 ∨
    n = 0x6 ∨ n = 0x7 ∨ n = 0x8 ∨ n = 0x9 ∨ n = 0xA ∨ n = 0xB ∨ n = 0xC ∨ n = 0xD ∨ n = 0xE ∨
    n = 0xF := by
  revert n; decide

theorem decodeFamily8_ok {c : Config} {w : Word} {x y : RegIdx} {i : Instr}
    (hw : w = formatR 0x8 x (nibbleOf y) (fieldN w))
    (h : decodeFamily8 c x y (fieldN w) = .ok i) : wordsOf c w i := by
  unfold decodeFamily8 at h
  by_cases h0 : fieldN w = 0x0
  · rw [if_pos h0] at h; cases h; rw [h0] at hw; exact hw
  rw [if_neg h0] at h
  by_cases h1 : fieldN w = 0x1
  · rw [if_pos h1] at h; cases h; rw [h1] at hw; exact hw
  rw [if_neg h1] at h
  by_cases h2 : fieldN w = 0x2
  · rw [if_pos h2] at h; cases h; rw [h2] at hw; exact hw
  rw [if_neg h2] at h
  by_cases h3 : fieldN w = 0x3
  · rw [if_pos h3] at h; cases h; rw [h3] at hw; exact hw
  rw [if_neg h3] at h
  by_cases h4 : fieldN w = 0x4
  · rw [if_pos h4] at h; cases h; rw [h4] at hw; exact hw
  rw [if_neg h4] at h
  by_cases h5 : fieldN w = 0x5
  · rw [if_pos h5] at h; cases h; rw [h5] at hw; exact hw
  rw [if_neg h5] at h
  by_cases h6 : fieldN w = 0x6
  · rw [if_pos h6] at h; cases h; rw [h6] at hw; exact ⟨_, hw⟩
  rw [if_neg h6] at h
  by_cases h7 : fieldN w = 0x7
  · rw [if_pos h7] at h; cases h; rw [h7] at hw; exact hw
  rw [if_neg h7] at h
  by_cases h8 : fieldN w = c.shlSubop
  · rw [if_pos h8] at h; cases h; rw [h8] at hw; exact ⟨_, hw⟩
  · rw [if_neg h8] at h; cases h

theorem decodeFamilyE_ok {c : Config} {w : Word} {x : RegIdx} {i : Instr}
    (hw : w = formatI 0xE x (fieldKk w)) (h : decodeFamilyE x (fieldKk w) = .ok i) :
    wordsOf c w i := by
  unfold decodeFamilyE at h
  by_cases h0 : fieldKk w = 0x9E
  · rw [if_pos h0] at h; cases h; rw [h0] at hw; exact hw
  rw [if_neg h0] at h
  by_cases h1 : fieldKk w = 0xA1
  · rw [if_pos h1] at h; cases h; rw [h1] at hw; exact hw
  · rw [if_neg h1] at h; cases h

theorem decodeFamilyF_ok {c : Config} {w : Word} {x : RegIdx} {i : Instr}
    (hw : w = formatI 0xF x (fieldKk w)) (h : decodeFamilyF x (fieldKk w) = .ok i) :
    wordsOf c w i := by
  unfold decodeFamilyF at h
  by_cases h0 : fieldKk w = 0x07
  · rw [if_pos h0] at h; cases h; rw [h0] at hw; exact hw
  rw [if_neg h0] at h
  by_cases h1 : fieldKk w = 0x0A
  · rw [if_pos h1] at h; cases h; rw [h1] at hw; exact hw
  rw [if_neg h1] at h
  by_cases h2 : fieldKk w = 0x15
  · rw [if_pos h2] at h; cases h; rw [h2] at hw; exact hw
  rw [if_neg h2] at h
  by_cases h3 : fieldKk w = 0x18
  · rw [if_pos h3] at h; cases h; rw [h3] at hw; exact hw
  rw [if_neg h3] at h
  by_cases h4 : fieldKk w = 0x1E
  · rw [if_pos h4] at h; cases h; rw [h4] at hw; exact hw
  rw [if_neg h4] at h
  by_cases h5 : fieldKk w = 0x29
  · rw [if_pos h5] at h; cases h; rw [h5] at hw; exact hw
  rw [if_neg h5] at h
  by_cases h6 : fieldKk w = 0x33
  · rw [if_pos h6] at h; cases h; rw [h6] at hw; exact hw
  rw [if_neg h6] at h
  by_cases h7 : fieldKk w = 0x55
  · rw [if_pos h7] at h; cases h; rw [h7] at hw; exact hw
  rw [if_neg h7] at h
  by_cases h8 : fieldKk w = 0x65
  · rw [if_pos h8] at h; cases h; rw [h8] at hw; exact hw
  · rw [if_neg h8] at h; cases h

/-- A word that decodes into an instruction is one of that instruction's words (R74, R75, R80). -/
theorem decodeWord_ok {c : Config} {w : Word} {i : Instr} (h : decodeWord c w = .ok i) :
    wordsOf c w i := by
  have eA := word_eq_formatA w
  have eI := word_eq_formatI w
  have eR := word_eq_formatR w
  rcases nibble_cases (fieldOp w) with e | e | e | e | e | e | e | e | e | e | e | e | e | e | e | e <;>
    rw [e] at eA eI eR <;> simp [decodeWord, e] at h
  · unfold decodeFamily0 at h
    split at h
    · cases h; assumption
    · split at h
      · cases h; assumption
      · cases h
  · cases h; exact eA
  · cases h; exact eA
  · cases h; exact eI
  · cases h; exact eI
  · cases h; exact ⟨_, eR⟩
  · cases h; exact eI
  · cases h; exact eI
  · exact decodeFamily8_ok eR h
  · cases h; exact ⟨_, eR⟩
  · cases h; exact eA
  · cases h; exact eA
  · cases h; exact eI
  · cases h; exact eR
  · exact decodeFamilyE_ok eI h
  · exact decodeFamilyF_ok eI h

end Sys2Proof
end

