-- ==== Sys2Proof/Laws/Memory.lean ====
section
/-! SUPPORT. The laws of memory (20_memory.md R53, R58, R61): a read after a write to the same address gives the
byte written, a write leaves every other address alone, every operation keeps the canonical form, and two
canonical memories that read alike are equal. -/

namespace Sys2Proof.Machine

/-! ### Reading after writing -/

theorem readByte_putCell (m : List Host.Cell) (a c : Nat) (b : Byte) :
    readByte (putCell a b m) c = if c = a then b else readByte m c := by
  induction m with
  | nil => simp [putCell, readByte]
  | cons cell rest ih =>
    obtain ⟨k, d⟩ := cell
    simp only [putCell]
    split
    · simp [readByte]
    · split
      · subst_vars; simp only [readByte]; split <;> rfl
      · simp only [readByte, ih]
        by_cases h1 : c = k <;> by_cases h2 : c = a <;> simp_all

theorem readByte_dropCell (m : List Host.Cell) (a c : Nat) :
    readByte (dropCell a m) c = if c = a then unlisted a else readByte m c := by
  induction m with
  | nil => by_cases h : c = a <;> simp [dropCell, readByte, h]
  | cons cell rest ih =>
    obtain ⟨k, d⟩ := cell
    simp only [dropCell]
    by_cases h1 : a = k
    · subst h1
      by_cases h2 : c = a
      · subst h2; simpa using ih
      · simp [readByte, ih, h2]
    · by_cases h2 : c = a
      · subst h2; simp [readByte, ih, h1]
      · simp [readByte, ih, h1, h2]

theorem readByte_writeByte (m : List Host.Cell) (a c : Nat) (b : Byte) :
    readByte (writeByte m a b) c = if c = a then b else readByte m c := by
  simp only [writeByte]
  split
  · next h => rw [readByte_dropCell, h]
  · exact readByte_putCell m a c b

@[simp] theorem readByte_writeByte_same (m : List Host.Cell) (a : Nat) (b : Byte) :
    readByte (writeByte m a b) a = b := by simp [readByte_writeByte]

theorem readByte_writeByte_ne (m : List Host.Cell) {a c : Nat} (b : Byte) (h : c ≠ a) :
    readByte (writeByte m a b) c = readByte m c := by simp [readByte_writeByte, h]

/-- What a run of stores leaves: the stored bytes from `a` upward, every other address as it was. -/
theorem readByte_writeBytes (bs : List Byte) (m : List Host.Cell) (a c : Nat) :
    readByte (writeBytes m a bs) c =
      if h : a ≤ c ∧ c - a < bs.length then bs[c - a]'h.2 else readByte m c := by
  induction bs generalizing m a with
  | nil => simp [writeBytes]
  | cons b bs ih =>
    rw [writeBytes, ih, readByte_writeByte]
    rcases Nat.lt_trichotomy a c with h | h | h
    · obtain ⟨d, rfl⟩ : ∃ d, c = a + 1 + d := ⟨c - (a + 1), by omega⟩
      have e1 : a + 1 + d - (a + 1) = d := by omega
      have e2 : a + 1 + d - a = d + 1 := by omega
      have hne : a + 1 + d ≠ a := by omega
      by_cases hd : d < bs.length
      · rw [dif_pos ⟨by omega, by omega⟩, dif_pos ⟨by omega, by simp; omega⟩]
        simp [e1, e2]
      · rw [dif_neg (by omega), dif_neg (by simp; omega), if_neg hne]
    · subst h
      rw [dif_neg (by omega), dif_pos ⟨le_refl _, by simp⟩]
      simp
    · rw [dif_neg (by omega), dif_neg (by omega), if_neg (by omega)]

theorem readByte_writeBytes_outside (bs : List Byte) (m : List Host.Cell) (a c : Nat)
    (h : c < a ∨ a + bs.length ≤ c) : readByte (writeBytes m a bs) c = readByte m c := by
  rw [readByte_writeBytes, dif_neg (by omega)]

theorem readByte_writeBytes_inside (bs : List Byte) (m : List Host.Cell) (a k : Nat)
    (h : k < bs.length) : readByte (writeBytes m a bs) (a + k) = bs[k] := by
  rw [readByte_writeBytes, dif_pos ⟨by omega, by omega⟩]
  congr 1; omega

@[simp] theorem length_readBytes (m : List Host.Cell) (a n : Nat) : (readBytes m a n).length = n := by
  induction n generalizing a with
  | zero => rfl
  | succ n ih => simp [readBytes, ih]

theorem getElem_readBytes (m : List Host.Cell) (a n k : Nat) (h : k < (readBytes m a n).length) :
    (readBytes m a n)[k] = readByte m (a + k) := by
  induction n generalizing a k with
  | zero => simp at h
  | succ n ih =>
    cases k with
    | zero => simp [readBytes]
    | succ k =>
      simp only [readBytes, List.getElem_cons_succ]
      rw [ih]; congr 1; omega

/-! ### The canonical form -/

theorem wfFrom_mono {lo hi : Nat} (m : List Host.Cell) (h : lo ≤ hi) (w : wfFrom hi m = true) :
    wfFrom lo m = true := by
  cases m with
  | nil => rfl
  | cons cell rest =>
    obtain ⟨k, b⟩ := cell
    simp only [wfFrom, Bool.and_eq_true, decide_eq_true_eq] at w ⊢
    exact ⟨⟨⟨by omega, w.1.1.2⟩, w.1.2⟩, w.2⟩

theorem wfFrom_putCell (m : List Host.Cell) (lo a : Nat) (b : Byte) (hlo : lo ≤ a) (ha : a < memSize)
    (hb : b ≠ unlisted a) (w : wfFrom lo m = true) : wfFrom lo (putCell a b m) = true := by
  induction m generalizing lo with
  | nil => simp [putCell, wfFrom, hlo, ha, hb]
  | cons cell rest ih =>
    obtain ⟨k, c⟩ := cell
    simp only [wfFrom, Bool.and_eq_true, decide_eq_true_eq] at w
    simp only [putCell]
    split
    · simp only [wfFrom, Bool.and_eq_true, decide_eq_true_eq, bne_iff_ne, ne_eq]
      exact ⟨⟨⟨hlo, ha⟩, hb⟩, ⟨⟨by omega, w.1.1.2⟩, by simpa using w.1.2⟩, w.2⟩
    · split
      · subst_vars
        simp only [wfFrom, Bool.and_eq_true, decide_eq_true_eq, bne_iff_ne, ne_eq]
        exact ⟨⟨⟨hlo, ha⟩, hb⟩, w.2⟩
      · simp only [wfFrom, Bool.and_eq_true, decide_eq_true_eq]
        exact ⟨w.1, ih (k + 1) (by omega) w.2⟩

theorem wfFrom_dropCell (m : List Host.Cell) (lo a : Nat) (w : wfFrom lo m = true) :
    wfFrom lo (dropCell a m) = true := by
  induction m generalizing lo with
  | nil => rfl
  | cons cell rest ih =>
    obtain ⟨k, c⟩ := cell
    simp only [wfFrom, Bool.and_eq_true, decide_eq_true_eq] at w
    simp only [dropCell]
    split
    · exact ih lo (wfFrom_mono rest (by omega) w.2)
    · simp only [wfFrom, Bool.and_eq_true, decide_eq_true_eq]
      exact ⟨w.1, ih (k + 1) w.2⟩

theorem wf_writeByte (m : List Host.Cell) (a : Nat) (b : Byte) (ha : a < memSize)
    (w : Memory.wf m = true) : Memory.wf (writeByte m a b) = true := by
  simp only [writeByte]
  split
  · exact wfFrom_dropCell m 0 a w
  · next h => exact wfFrom_putCell m 0 a b (Nat.zero_le _) ha h w

/-- Every run of stores inside memory keeps the canonical form. -/
theorem wf_writeBytes (bs : List Byte) (m : List Host.Cell) (a : Nat) (h : a + bs.length ≤ memSize)
    (w : Memory.wf m = true) : Memory.wf (writeBytes m a bs) = true := by
  induction bs generalizing m a with
  | nil => exact w
  | cons b bs ih =>
    simp only [List.length_cons] at h
    exact ih _ _ (by omega) (wf_writeByte m a b (by omega) w)

theorem readByte_of_wfFrom (m : List Host.Cell) (lo a : Nat) (h : a < lo) (w : wfFrom lo m = true) :
    readByte m a = unlisted a := by
  induction m generalizing lo with
  | nil => rfl
  | cons cell rest ih =>
    obtain ⟨k, c⟩ := cell
    simp only [wfFrom, Bool.and_eq_true, decide_eq_true_eq] at w
    rw [readByte, if_neg (by omega)]
    exact ih (k + 1) (by omega) w.2

/-- The canonical form is canonical: two memories that read alike are the same list. -/
theorem wfFrom_ext (m n : List Host.Cell) (lo : Nat) (wm : wfFrom lo m = true) (wn : wfFrom lo n = true)
    (h : ∀ a, readByte m a = readByte n a) : m = n := by
  induction m generalizing n lo with
  | nil =>
    cases n with
    | nil => rfl
    | cons cell rest =>
      obtain ⟨k, c⟩ := cell
      simp only [wfFrom, Bool.and_eq_true, decide_eq_true_eq, bne_iff_ne] at wn
      exact absurd (by simpa [readByte] using (h k).symm) wn.1.2
  | cons cell rest ih =>
    obtain ⟨k, c⟩ := cell
    simp only [wfFrom, Bool.and_eq_true, decide_eq_true_eq, bne_iff_ne] at wm
    cases n with
    | nil => exact absurd (by simpa [readByte] using h k) wm.1.2
    | cons cell' rest' =>
      obtain ⟨k', c'⟩ := cell'
      simp only [wfFrom, Bool.and_eq_true, decide_eq_true_eq, bne_iff_ne] at wn
      rcases Nat.lt_trichotomy k k' with hk | hk | hk
      · have e := h k
        rw [readByte, if_pos rfl, readByte, if_neg (by omega),
          readByte_of_wfFrom rest' (k' + 1) k (by omega) wn.2] at e
        exact absurd e wm.1.2
      · subst hk
        have e : c = c' := by simpa [readByte] using h k
        subst e
        rw [ih rest' (k + 1) wm.2 wn.2]
        intro a
        by_cases ha : a = k
        · subst ha
          rw [readByte_of_wfFrom rest (a + 1) a (by omega) wm.2,
            readByte_of_wfFrom rest' (a + 1) a (by omega) wn.2]
        · simpa [readByte, ha] using h a
      · have e := h k'
        rw [readByte, if_neg (by omega), readByte_of_wfFrom rest (k + 1) k' (by omega) wm.2,
          readByte, if_pos rfl] at e
        exact absurd e.symm wn.1.2

/-! ### The bounds-checked primitives -/

theorem inBounds_iff (a n : Nat) : inBounds a n = true ↔ n = 0 ∨ a + n ≤ memSize := by
  simp only [inBounds, memSize, Bool.or_eq_true, decide_eq_true_eq]; omega

/-- Everything `MemRead` can do (R9, R53). -/
theorem memRead_eq (s : State) (a n : Nat) :
    memRead s a n = if n = 0 ∨ a + n ≤ memSize then some (readBytes s.mem a n) else none := by
  simp only [memRead, inBounds_iff]

/-- Everything `MemWrite` can do (R9, R53). -/
theorem memWrite_eq (s : State) (a : Nat) (bs : List Byte) :
    memWrite s a bs = if bs.length = 0 ∨ a + bs.length ≤ memSize then
      some { s with mem := writeBytes s.mem a bs } else none := by
  simp only [memWrite, inBounds_iff]

theorem memWrite_keeps_wf {s t : State} {a : Nat} {bs : List Byte} (h : memWrite s a bs = some t)
    (w : Memory.wf s.mem = true) : Memory.wf t.mem = true := by
  rw [memWrite_eq] at h
  split at h
  · next hb =>
    cases h
    rcases hb with h0 | h0
    · rw [List.length_eq_zero_iff] at h0; subst h0; exact w
    · exact wf_writeBytes bs s.mem a h0 w
  · cases h

theorem fetch_eq (s : State) : fetch s = if s.pc.toNat ≤ 0xFFE then
    some (wordOfBytes (readByte s.mem s.pc.toNat) (readByte s.mem (s.pc.toNat + 1))) else none := by
  simp only [fetch]; split <;> split <;> first | rfl | omega

theorem fetch_some {s : State} {w : Word} (h : fetch s = some w) : s.pc.toNat ≤ 0xFFE := by
  rw [fetch_eq] at h; split at h
  · assumption
  · cases h

theorem placeWord_keeps_wf (s : State) (w : Word) (h : Memory.wf s.mem = true) :
    Memory.wf (placeWord s w).mem = true := by
  refine wf_writeBytes _ _ _ ?_ h
  simp only [memSize, List.length_cons, List.length_nil]
  split <;> simp; omega

theorem reset_mem_wf : Memory.wf State.reset.mem = true := rfl

end Sys2Proof.Machine
end

