-- ==== Sys2Proof/Laws/State.lean ====
section
/-! SUPPORT. What each update of the state does to each field (10_state.md R20): one lemma per field per update,
true by computation, so that no later proof unfolds a record update. -/

namespace Sys2Proof.Machine

variable (s : State)

/-! ### setV -/

@[simp] theorem State.setV_v (x : RegIdx) (b : Byte) : (s.setV x b).v = s.v.set x.val b := rfl
@[simp] theorem State.setV_i (x : RegIdx) (b : Byte) : (s.setV x b).i = s.i := rfl
@[simp] theorem State.setV_pc (x : RegIdx) (b : Byte) : (s.setV x b).pc = s.pc := rfl
@[simp] theorem State.setV_stack (x : RegIdx) (b : Byte) : (s.setV x b).stack = s.stack := rfl
@[simp] theorem State.setV_sp (x : RegIdx) (b : Byte) : (s.setV x b).sp = s.sp := rfl
@[simp] theorem State.setV_dt (x : RegIdx) (b : Byte) : (s.setV x b).dt = s.dt := rfl
@[simp] theorem State.setV_st (x : RegIdx) (b : Byte) : (s.setV x b).st = s.st := rfl
@[simp] theorem State.setV_mem (x : RegIdx) (b : Byte) : (s.setV x b).mem = s.mem := rfl
@[simp] theorem State.setV_fb (x : RegIdx) (b : Byte) : (s.setV x b).fb = s.fb := rfl
@[simp] theorem State.setV_keys (x : RegIdx) (b : Byte) : (s.setV x b).keys = s.keys := rfl
@[simp] theorem State.setV_status (x : RegIdx) (b : Byte) : (s.setV x b).status = s.status := rfl
@[simp] theorem State.setV_draws (x : RegIdx) (b : Byte) : (s.setV x b).draws = s.draws := rfl

/-! ### setVF -/

@[simp] theorem State.setVF_v (f : Bool) : (s.setVF f).v = s.v.set flagReg.val (flagByte f) := rfl
@[simp] theorem State.setVF_i (f : Bool) : (s.setVF f).i = s.i := rfl
@[simp] theorem State.setVF_pc (f : Bool) : (s.setVF f).pc = s.pc := rfl
@[simp] theorem State.setVF_stack (f : Bool) : (s.setVF f).stack = s.stack := rfl
@[simp] theorem State.setVF_sp (f : Bool) : (s.setVF f).sp = s.sp := rfl
@[simp] theorem State.setVF_dt (f : Bool) : (s.setVF f).dt = s.dt := rfl
@[simp] theorem State.setVF_st (f : Bool) : (s.setVF f).st = s.st := rfl
@[simp] theorem State.setVF_mem (f : Bool) : (s.setVF f).mem = s.mem := rfl
@[simp] theorem State.setVF_fb (f : Bool) : (s.setVF f).fb = s.fb := rfl
@[simp] theorem State.setVF_keys (f : Bool) : (s.setVF f).keys = s.keys := rfl
@[simp] theorem State.setVF_status (f : Bool) : (s.setVF f).status = s.status := rfl
@[simp] theorem State.setVF_draws (f : Bool) : (s.setVF f).draws = s.draws := rfl

/-! ### setFlagged -/

@[simp] theorem State.setFlagged_v (x : RegIdx) (b : Byte) (f : Bool) : (s.setFlagged x b f).v = (s.v.set x.val b).set flagReg.val (flagByte f) := rfl
@[simp] theorem State.setFlagged_i (x : RegIdx) (b : Byte) (f : Bool) : (s.setFlagged x b f).i = s.i := rfl
@[simp] theorem State.setFlagged_pc (x : RegIdx) (b : Byte) (f : Bool) : (s.setFlagged x b f).pc = s.pc := rfl
@[simp] theorem State.setFlagged_stack (x : RegIdx) (b : Byte) (f : Bool) : (s.setFlagged x b f).stack = s.stack := rfl
@[simp] theorem State.setFlagged_sp (x : RegIdx) (b : Byte) (f : Bool) : (s.setFlagged x b f).sp = s.sp := rfl
@[simp] theorem State.setFlagged_dt (x : RegIdx) (b : Byte) (f : Bool) : (s.setFlagged x b f).dt = s.dt := rfl
@[simp] theorem State.setFlagged_st (x : RegIdx) (b : Byte) (f : Bool) : (s.setFlagged x b f).st = s.st := rfl
@[simp] theorem State.setFlagged_mem (x : RegIdx) (b : Byte) (f : Bool) : (s.setFlagged x b f).mem = s.mem := rfl
@[simp] theorem State.setFlagged_fb (x : RegIdx) (b : Byte) (f : Bool) : (s.setFlagged x b f).fb = s.fb := rfl
@[simp] theorem State.setFlagged_keys (x : RegIdx) (b : Byte) (f : Bool) : (s.setFlagged x b f).keys = s.keys := rfl
@[simp] theorem State.setFlagged_status (x : RegIdx) (b : Byte) (f : Bool) : (s.setFlagged x b f).status = s.status := rfl
@[simp] theorem State.setFlagged_draws (x : RegIdx) (b : Byte) (f : Bool) : (s.setFlagged x b f).draws = s.draws := rfl

/-! ### setI -/

@[simp] theorem State.setI_v (w : Word) : (s.setI w).v = s.v := rfl
@[simp] theorem State.setI_i (w : Word) : (s.setI w).i = w := rfl
@[simp] theorem State.setI_pc (w : Word) : (s.setI w).pc = s.pc := rfl
@[simp] theorem State.setI_stack (w : Word) : (s.setI w).stack = s.stack := rfl
@[simp] theorem State.setI_sp (w : Word) : (s.setI w).sp = s.sp := rfl
@[simp] theorem State.setI_dt (w : Word) : (s.setI w).dt = s.dt := rfl
@[simp] theorem State.setI_st (w : Word) : (s.setI w).st = s.st := rfl
@[simp] theorem State.setI_mem (w : Word) : (s.setI w).mem = s.mem := rfl
@[simp] theorem State.setI_fb (w : Word) : (s.setI w).fb = s.fb := rfl
@[simp] theorem State.setI_keys (w : Word) : (s.setI w).keys = s.keys := rfl
@[simp] theorem State.setI_status (w : Word) : (s.setI w).status = s.status := rfl
@[simp] theorem State.setI_draws (w : Word) : (s.setI w).draws = s.draws := rfl

/-! ### setPc -/

@[simp] theorem State.setPc_v (w : Word) : (s.setPc w).v = s.v := rfl
@[simp] theorem State.setPc_i (w : Word) : (s.setPc w).i = s.i := rfl
@[simp] theorem State.setPc_pc (w : Word) : (s.setPc w).pc = w := rfl
@[simp] theorem State.setPc_stack (w : Word) : (s.setPc w).stack = s.stack := rfl
@[simp] theorem State.setPc_sp (w : Word) : (s.setPc w).sp = s.sp := rfl
@[simp] theorem State.setPc_dt (w : Word) : (s.setPc w).dt = s.dt := rfl
@[simp] theorem State.setPc_st (w : Word) : (s.setPc w).st = s.st := rfl
@[simp] theorem State.setPc_mem (w : Word) : (s.setPc w).mem = s.mem := rfl
@[simp] theorem State.setPc_fb (w : Word) : (s.setPc w).fb = s.fb := rfl
@[simp] theorem State.setPc_keys (w : Word) : (s.setPc w).keys = s.keys := rfl
@[simp] theorem State.setPc_status (w : Word) : (s.setPc w).status = s.status := rfl
@[simp] theorem State.setPc_draws (w : Word) : (s.setPc w).draws = s.draws := rfl

/-! ### advance -/

@[simp] theorem State.advance_v : (s.advance).v = s.v := rfl
@[simp] theorem State.advance_i : (s.advance).i = s.i := rfl
@[simp] theorem State.advance_pc : (s.advance).pc = s.pc + 2 := rfl
@[simp] theorem State.advance_stack : (s.advance).stack = s.stack := rfl
@[simp] theorem State.advance_sp : (s.advance).sp = s.sp := rfl
@[simp] theorem State.advance_dt : (s.advance).dt = s.dt := rfl
@[simp] theorem State.advance_st : (s.advance).st = s.st := rfl
@[simp] theorem State.advance_mem : (s.advance).mem = s.mem := rfl
@[simp] theorem State.advance_fb : (s.advance).fb = s.fb := rfl
@[simp] theorem State.advance_keys : (s.advance).keys = s.keys := rfl
@[simp] theorem State.advance_status : (s.advance).status = s.status := rfl
@[simp] theorem State.advance_draws : (s.advance).draws = s.draws := rfl

/-! ### skipIf -/

@[simp] theorem State.skipIf_v (taken : Bool) : (s.skipIf taken).v = s.v := rfl
@[simp] theorem State.skipIf_i (taken : Bool) : (s.skipIf taken).i = s.i := rfl
@[simp] theorem State.skipIf_pc (taken : Bool) : (s.skipIf taken).pc = if taken then s.pc + 4 else s.pc + 2 := rfl
@[simp] theorem State.skipIf_stack (taken : Bool) : (s.skipIf taken).stack = s.stack := rfl
@[simp] theorem State.skipIf_sp (taken : Bool) : (s.skipIf taken).sp = s.sp := rfl
@[simp] theorem State.skipIf_dt (taken : Bool) : (s.skipIf taken).dt = s.dt := rfl
@[simp] theorem State.skipIf_st (taken : Bool) : (s.skipIf taken).st = s.st := rfl
@[simp] theorem State.skipIf_mem (taken : Bool) : (s.skipIf taken).mem = s.mem := rfl
@[simp] theorem State.skipIf_fb (taken : Bool) : (s.skipIf taken).fb = s.fb := rfl
@[simp] theorem State.skipIf_keys (taken : Bool) : (s.skipIf taken).keys = s.keys := rfl
@[simp] theorem State.skipIf_status (taken : Bool) : (s.skipIf taken).status = s.status := rfl
@[simp] theorem State.skipIf_draws (taken : Bool) : (s.skipIf taken).draws = s.draws := rfl

/-! ### countDraw -/

@[simp] theorem State.countDraw_v : (s.countDraw).v = s.v := rfl
@[simp] theorem State.countDraw_i : (s.countDraw).i = s.i := rfl
@[simp] theorem State.countDraw_pc : (s.countDraw).pc = s.pc := rfl
@[simp] theorem State.countDraw_stack : (s.countDraw).stack = s.stack := rfl
@[simp] theorem State.countDraw_sp : (s.countDraw).sp = s.sp := rfl
@[simp] theorem State.countDraw_dt : (s.countDraw).dt = s.dt := rfl
@[simp] theorem State.countDraw_st : (s.countDraw).st = s.st := rfl
@[simp] theorem State.countDraw_mem : (s.countDraw).mem = s.mem := rfl
@[simp] theorem State.countDraw_fb : (s.countDraw).fb = s.fb := rfl
@[simp] theorem State.countDraw_keys : (s.countDraw).keys = s.keys := rfl
@[simp] theorem State.countDraw_status : (s.countDraw).status = s.status := rfl
@[simp] theorem State.countDraw_draws : (s.countDraw).draws = s.draws + 1 := rfl

end Sys2Proof.Machine
end

