-- ==== Sys2Proof/Laws/Registers.lean ====
section
/-! SUPPORT. Reading a general register after each operation that writes registers (10_state.md R21, R22,
42_alu.md R110, 43_index_memory.md R134, R135). -/

namespace Sys2Proof.Machine

theorem State.getV_def (s : State) (r : RegIdx) : s.getV r = s.v[r.val] := rfl

theorem State.getV_setV (s : State) (x r : RegIdx) (b : Byte) :
    (s.setV x b).getV r = if r = x then b else s.getV r := by
  simp only [State.getV, State.setV_v, Vector.getElem_set]
  by_cases h : r = x
  · simp [h]
  · rw [if_neg (fun e => h (Fin.ext e.symm)), if_neg h]

@[simp] theorem State.getV_setV_same (s : State) (x : RegIdx) (b : Byte) : (s.setV x b).getV x = b := by
  rw [State.getV_setV, if_pos rfl]

theorem State.getV_setV_ne (s : State) {x r : RegIdx} (b : Byte) (h : r ≠ x) :
    (s.setV x b).getV r = s.getV r := by
  rw [State.getV_setV, if_neg h]

/-- A flag-setting write: the flag remains in `VF`, the result is in `V[x]` for any other `x` (R110). -/
theorem State.getV_setFlagged (s : State) (x r : RegIdx) (b : Byte) (f : Bool) :
    (s.setFlagged x b f).getV r =
      if r = flagReg then flagByte f else if r = x then b else s.getV r := by
  simp only [State.setFlagged, State.setVF, State.getV_setV]

theorem State.getV_setVF (s : State) (r : RegIdx) (f : Bool) :
    (s.setVF f).getV r = if r = flagReg then flagByte f else s.getV r :=
  State.getV_setV s flagReg r (flagByte f)

@[simp] theorem State.getV_advance (s : State) (r : RegIdx) : s.advance.getV r = s.getV r := rfl
@[simp] theorem State.getV_setPc (s : State) (w : Word) (r : RegIdx) : (s.setPc w).getV r = s.getV r := rfl
@[simp] theorem State.getV_setI (s : State) (w : Word) (r : RegIdx) : (s.setI w).getV r = s.getV r := rfl
@[simp] theorem State.getV_skipIf (s : State) (b : Bool) (r : RegIdx) :
    (s.skipIf b).getV r = s.getV r := rfl
@[simp] theorem State.getV_countDraw (s : State) (r : RegIdx) : s.countDraw.getV r = s.getV r := rfl

@[simp] theorem flagByte_true : flagByte true = 1 := rfl
@[simp] theorem flagByte_false : flagByte false = 0 := rfl

/-- A flag is 0 or 1 and nothing else (R22). -/
theorem flagByte_cases (f : Bool) : flagByte f = 0 ∨ flagByte f = 1 := by cases f <;> simp

/-- What a run of register writes leaves: the listed bytes from `k` upward, every other register as it was. -/
theorem getElem_setRegsFrom (bs : List Byte) (v : Vector Byte 16) (k r : Nat) (hr : r < 16) :
    (setRegsFrom v k bs)[r] = if h : k ≤ r ∧ r - k < bs.length then bs[r - k]'h.2 else v[r] := by
  induction bs generalizing v k with
  | nil => simp [setRegsFrom]
  | cons b bs ih =>
    rw [setRegsFrom, ih, Vector.getElem_setIfInBounds]
    rcases Nat.lt_trichotomy k r with h | h | h
    · obtain ⟨d, rfl⟩ : ∃ d, r = k + 1 + d := ⟨r - (k + 1), by omega⟩
      have e1 : k + 1 + d - (k + 1) = d := by omega
      have e2 : k + 1 + d - k = d + 1 := by omega
      have hne : k ≠ k + 1 + d := by omega
      by_cases hd : d < bs.length
      · rw [dif_pos ⟨by omega, by omega⟩, dif_pos ⟨by omega, by simp; omega⟩]
        simp [e1, e2]
      · rw [dif_neg (by omega), dif_neg (by simp; omega), if_neg hne]
    · subst h
      rw [dif_neg (by omega), dif_pos ⟨le_refl _, by simp⟩]
      simp
    · rw [dif_neg (by omega), dif_neg (by omega), if_neg (by omega)]

@[simp] theorem length_regsThrough (s : State) (x : RegIdx) : (s.regsThrough x).length = x.val + 1 := by
  have := x.isLt
  simp [State.regsThrough]

/-- The range through `x` holds `V[0]` to `V[x]` in order (R134). -/
theorem getElem_regsThrough (s : State) (x : RegIdx) (k : Nat) (h : k < (s.regsThrough x).length) :
    (s.regsThrough x)[k] = s.v[k]'(by have := x.isLt; simp at h; omega) := by
  simp [State.regsThrough]

end Sys2Proof.Machine
end

