-- ==== Sys2Proof/Laws/Ops.lean ====
section
/-! SUPPORT. One lemma for each remaining shared operation that says everything it can do: fault entry
(60_exceptions.md R153), the call stack (10_state.md R26), keys (44_keypad_timers.md R140, R143) and flags
(42_alu.md R117 to R121). -/

namespace Sys2Proof.Machine

/-- Fault entry answers a next state in which the report is latched and nothing else differs (R153). -/
theorem raise_next {f : FaultReport} {s t : State} (h : raise f s = .next t) :
    t = { s with status := .fault f } := by cases h; rfl

/-- What a push does: it needs a free entry, writes `stack[sp]` and adds one to `sp` (R26, R104). -/
theorem push_some {s t : State} {w : Word} (h : s.push w = some t) :
    ∃ hs : s.sp.val < 16,
      t = { s with stack := s.stack.set s.sp.val w, sp := ⟨s.sp.val + 1, by omega⟩ } := by
  unfold State.push at h; split at h
  · next hs => exact ⟨hs, (Option.some.inj h).symm⟩
  · cases h

theorem push_none {s : State} {w : Word} : s.push w = none ↔ s.sp = 16 := by
  have := s.sp.isLt
  unfold State.push
  split
  · next h => simp only [reduceCtorEq, false_iff]; intro e; rw [e] at h; exact absurd h (by decide)
  · next h => simp only [true_iff]; apply Fin.ext; show s.sp.val = 16; omega

/-- What a pop does: it needs a saved entry, subtracts one from `sp` and erases nothing (R26, R102). -/
theorem pop_some {s t : State} {w : Word} (h : s.pop = some (w, t)) :
    ∃ hs : 0 < s.sp.val, w = s.stack[s.sp.val - 1] ∧
      t = { s with sp := ⟨s.sp.val - 1, by omega⟩ } := by
  unfold State.pop at h; split at h
  · next hs => exact ⟨hs, by cases h; exact ⟨rfl, rfl⟩⟩
  · cases h

theorem pop_none {s : State} : s.pop = none ↔ s.sp = 0 := by
  unfold State.pop
  split
  · next h => simp only [reduceCtorEq, false_iff]; intro e; rw [e] at h; exact absurd h (by decide)
  · next h => simp only [true_iff]; apply Fin.ext; show s.sp.val = 0; omega

theorem keyOf_some {b : Byte} {k : Fin 16} (h : keyOf b = some k) : k.val = b.toNat := by
  unfold keyOf at h; split at h
  · cases h; rfl
  · cases h

theorem keyOf_none {b : Byte} : keyOf b = none ↔ 15 < b.toNat := by
  unfold keyOf; split
  · simp; omega
  · simp; omega

/-- The lowest pressed key is pressed and no lower one is (R143). -/
theorem lowestKey_some {s : State} {k : Nat} (h : s.lowestKey = some k) :
    ∃ hk : k < 16, s.keys[k] = true ∧ ∀ j, (hj : j < k) → s.keys[j]'(by omega) = false := by
  unfold State.lowestKey at h
  obtain ⟨hk, h1, h2⟩ := List.findIdx?_eq_some_iff_getElem.1 h
  have hk' : k < 16 := by simpa using hk
  refine ⟨hk', by simpa using h1, fun j hj => ?_⟩
  have := h2 j hj
  simpa using this

theorem lowestKey_none {s : State} : s.lowestKey = none ↔ ∀ k : Fin 16, s.keyDown k = false := by
  unfold State.lowestKey State.keyDown
  rw [List.findIdx?_eq_none_iff]
  constructor
  · intro h k
    exact h _ (Vector.mem_toList_iff.2 (Vector.getElem_mem k.isLt))
  · intro h b hb
    obtain ⟨k, hk, rfl⟩ := Vector.getElem_of_mem (Vector.mem_toList_iff.1 hb)
    exact h ⟨k, hk⟩

theorem carryOut_iff (a b : Byte) : carryOut a b = true ↔ a.toNat + b.toNat > 255 := by
  simp [carryOut]

theorem notBorrow_iff (a b : Byte) : notBorrow a b = true ↔ a.toNat > b.toNat := by
  simp [notBorrow]

theorem toNat_flagByte (f : Bool) : (flagByte f).toNat = if f = true then 1 else 0 := by cases f <;> rfl

theorem toNat_shrFlag (a : Byte) : (flagByte (shrFlag a)).toNat = a.toNat % 2 := by revert a; decide

theorem toNat_shlFlag (k : ShlFlagBit) (a : Byte) : (flagByte (shlFlag k a)).toNat =
    (match k with | .low => a.toNat % 2 | .high => a.toNat / 128) := by
  cases k <;> (revert a; decide)

/-! ### Operand forms -/

@[simp] theorem length_bcdDigits (b : Byte) : (bcdDigits b).length = 3 := rfl

/-- Zero extension of an address keeps its value (30_encoding.md R73). -/
@[simp] theorem toNat_addrOf (nnn : Addr12) : (addrOf nnn).toNat = nnn.toNat := by
  simp only [addrOf, BitVec.toNat_setWidth]; have := nnn.isLt; omega

/-- Zero extension of a register value keeps its value (R73). -/
@[simp] theorem toNat_wordOf (b : Byte) : (wordOf b).toNat = b.toNat := by
  simp only [wordOf, BitVec.toNat_setWidth]; have := b.isLt; omega

/-- The address of a glyph is five times the whole register value (43_index_memory.md R132). -/
theorem toNat_glyphAddr (b : Byte) : (glyphAddr b).toNat = b.toNat * 5 := by
  rw [glyphAddr, BitVec.toNat_mul, toNat_wordOf]
  have := b.isLt
  show b.toNat * 5 % 65536 = _
  omega

/-! ### Shared forms of several instructions -/

/-- Everything a store through `I` can do (R53): all its bytes, or the fault and no byte. -/
theorem storeAtI_eq (bytes : List Byte) (s : State) : storeAtI bytes s =
    if bytes.length = 0 ∨ s.i.toNat + bytes.length ≤ memSize then
      .next ({ s with mem := writeBytes s.mem s.i.toNat bytes } : State).advance
    else raise (.memoryOutOfBounds s.pc s.i bytes.length) s := by
  simp only [storeAtI, memWrite_eq]
  split <;> rename_i h
  · split at h
    · cases h
    · next g => rw [if_neg g]
  · split at h
    · next g => cases h; rw [if_pos g]
    · cases h

/-- Everything a skip on a key can do (R140, R141): move `pc` by 2 or 4, or the fault. -/
theorem skipOnKey_cases (x : RegIdx) (b : Bool) (s : State) :
    (15 < (s.getV x).toNat ∧ skipOnKey x b s = raise (.keyIndexOutOfRange s.pc (s.getV x)) s) ∨
    ∃ k : Fin 16, k.val = (s.getV x).toNat ∧ skipOnKey x b s = .next (s.skipIf (s.keyDown k == b)) := by
  cases h : keyOf (s.getV x) with
  | none => exact Or.inl ⟨keyOf_none.1 h, by simp only [skipOnKey, h]⟩
  | some k => exact Or.inr ⟨k, keyOf_some h, by simp only [skipOnKey, h]⟩

end Sys2Proof.Machine
end

