-- ==== Sys2Proof/Laws/Cycle.lean ====
section
/-! SUPPORT. What one cycle can do, said once (41_flow.md R100). -/

namespace Sys2Proof.Machine

/-- The next instruction is what the fetched word decodes to, in a core that runs. -/
theorem nextInstr_some {c : Config} {s : State} {i : Instr} :
    nextInstr c s = some i ↔
      s.status = .run ∧ ∃ w, fetch s = some w ∧ decodeWord c w = .ok i := by
  unfold nextInstr
  cases hs : s.status with
  | fault f => simp
  | run =>
    cases hf : fetch s with
    | none => simp
    | some w =>
      cases hd : decodeWord c w with
      | error e => simp [hd]
      | ok j => simp [hd]

/-- A faulted core is quiescent (R153). -/
theorem cycle_faulted {c : Config} {rnd : Byte} {s : State} {f : FaultReport} (h : s.status = .fault f) :
    cycle c rnd s = .next s := by simp only [cycle, h]

/-- A running core fetches, decodes and executes (R100). -/
theorem cycle_run {c : Config} {rnd : Byte} {s : State} (h : s.status = .run) :
    cycle c rnd s = fetchAndExecute c rnd s := by simp only [cycle, h]

/-- A cycle runs the next instruction, where there is one (R100). -/
theorem cycle_of_nextInstr {c : Config} {rnd : Byte} {s : State} {i : Instr}
    (h : nextInstr c s = some i) : cycle c rnd s = execIn c rnd i s := by
  obtain ⟨hs, w, hf, hd⟩ := nextInstr_some.1 h
  simp only [cycle, hs, fetchAndExecute, hf, decodeAndExecute, hd]

/-- At the default configuration and the free byte, `Execute` is `exec`. -/
theorem execIn_default (i : Instr) (s : State) :
    execIn Config.default (Config.rndByte s.draws) i s = exec i s := by
  cases i <;> rfl

/-- Everything a cycle that answers a next state can have done (R100): nothing in a faulted core, a fetch
fault, a decode fault, or the next instruction. -/
theorem cycle_cases {c : Config} {rnd : Byte} {s t : State} (h : cycle c rnd s = .next t) :
    (∃ f, s.status = .fault f ∧ t = s) ∨
    (s.status = .run ∧ s.pc.toNat ≥ 0xFFF ∧ t = { s with status := .fault (.fetchOutOfBounds s.pc) }) ∨
    (s.status = .run ∧ ∃ w e, fetch s = some w ∧ decodeWord c w = .error e ∧
      t = { s with status := .fault (.decodeFailure s.pc w) }) ∨
    (∃ i, nextInstr c s = some i ∧ execIn c rnd i s = .next t) := by
  cases hs : s.status with
  | fault f =>
    rw [cycle_faulted hs] at h
    cases h
    exact Or.inl ⟨f, rfl, rfl⟩
  | run =>
    rw [cycle_run hs] at h
    cases hf : fetch s with
    | none =>
      simp only [fetchAndExecute, hf] at h
      refine Or.inr (Or.inl ⟨rfl, ?_, raise_next h⟩)
      rw [fetch_eq] at hf
      split at hf
      · cases hf
      · omega
    | some w =>
      simp only [fetchAndExecute, hf, decodeAndExecute] at h
      cases hd : decodeWord c w with
      | error e =>
        rw [hd] at h
        exact Or.inr (Or.inr (Or.inl ⟨rfl, w, e, rfl, hd, raise_next h⟩))
      | ok i =>
        rw [hd] at h
        exact Or.inr (Or.inr (Or.inr ⟨i, nextInstr_some.2 ⟨hs, w, hf, hd⟩, h⟩))

/-- A word placed for the next step is the word the next step fetches (log entry 8). -/
theorem fetch_placeWord (s : State) (w : Word) : fetch (placeWord s w) = some w := by
  rw [fetch_eq, placeWord]
  simp only
  have hp : (if s.pc.toNat + 1 > 0xFFF then (0x200 : Word) else s.pc).toNat ≤ 0xFFE := by
    split
    · decide
    · omega
  rw [if_pos hp]
  generalize (if s.pc.toNat + 1 > 0xFFF then (0x200 : Word) else s.pc).toNat = a
  have h0 := readByte_writeBytes_inside [highByte w, lowByte w] s.mem a 0 (by simp)
  have h1 := readByte_writeBytes_inside [highByte w, lowByte w] s.mem a 1 (by simp)
  rw [Nat.add_zero] at h0
  rw [h0, h1]
  simp

end Sys2Proof.Machine
end

