-- ==== Sys2Proof/Laws/Display.lean ====
section
/-! SUPPORT. What the drawing engine does, pixel by pixel (40_display.md R91): one lemma for each loop, from the
single pixel outward. -/

namespace Sys2Proof.Machine

/-! ### Single pixels -/

theorem pixelAt_outside (fb : Vector (Vector Bool 64) 32) (r c : Nat) (h : ¬(r < 32 ∧ c < 64)) :
    pixelAt fb r c = false := dif_neg h

theorem pixelAt_setPixel (fb : Vector (Vector Bool 64) 32) (r c r' c' : Nat) (b : Bool) :
    pixelAt (setPixel fb r c b) r' c' =
      if r' = r ∧ c' = c ∧ r < 32 ∧ c < 64 then b else pixelAt fb r' c' := by
  unfold setPixel
  by_cases h : r < 32 ∧ c < 64
  · rw [dif_pos h]
    by_cases h' : r' < 32 ∧ c' < 64
    · simp only [pixelAt, dif_pos h', Vector.getElem_set]
      by_cases hr : r = r'
      · subst hr
        by_cases hc : c = c'
        · subst hc; simp [h]
        · simp [hc, Ne.symm hc]
      · simp [hr, Ne.symm hr]
    · rw [pixelAt_outside _ _ _ h', pixelAt_outside _ _ _ h', if_neg]
      rintro ⟨rfl, rfl, hh⟩; exact h' hh
  · rw [dif_neg h, if_neg]
    rintro ⟨-, -, hh⟩; exact h hh

@[simp] theorem pixelAt_blankScreen (r c : Nat) : pixelAt blankScreen r c = false := by
  unfold pixelAt blankScreen; split <;> simp

/-- Two buffers with the same pixels are the same buffer. -/
theorem screen_ext {f g : Vector (Vector Bool 64) 32} (h : ∀ r c, pixelAt f r c = pixelAt g r c) :
    f = g := by
  apply Vector.ext; intro r hr
  apply Vector.ext; intro c hc
  have := h r c
  simpa only [pixelAt, dif_pos (And.intro hr hc)] using this

/-! ### The loops of R91 -/

theorem xor_decide_iff (p : Bool) (Q : Prop) [Decidable Q] :
    (p ^^ decide Q) = true ↔ ¬(p = true ↔ Q) := by
  by_cases q : Q <;> cases p <;> simp [q]

/-- Flipping two disjoint sets of cells one after the other flips their union. -/
theorem flip_flip {P C D : Prop} (h : C → ¬D) : ¬(¬(P ↔ C) ↔ D) ↔ ¬(P ↔ C ∨ D) := by
  by_cases P <;> by_cases C <;> by_cases D <;> simp_all

theorem lit_before {P P' C : Prop} (h : P' ↔ ¬(P ↔ C)) (hc : ¬C) : P' ↔ P := by
  by_cases P <;> simp_all

theorem pixelAt_drawPixel (row col : Nat) (bit : Bool) (k : Canvas) (r c : Nat) :
    pixelAt (drawPixel row col bit k).fb r c =
      (pixelAt k.fb r c ^^ decide (r = row ∧ c = col ∧ row ≤ 31 ∧ col ≤ 63 ∧ bit = true)) := by
  unfold drawPixel
  split
  · next h =>
    simp only [pixelAt_setPixel]
    by_cases e : r = row ∧ c = col
    · obtain ⟨rfl, rfl⟩ := e
      rw [if_pos ⟨rfl, rfl, by omega, by omega⟩]
      simp [h.1, h.2.1, h.2.2]
    · rw [if_neg (by tauto), decide_eq_false (by tauto), Bool.xor_false]
  · next h => rw [decide_eq_false (by tauto), Bool.xor_false]

theorem collision_drawPixel (row col : Nat) (bit : Bool) (k : Canvas) :
    (drawPixel row col bit k).collision = true ↔ k.collision = true ∨
      (row ≤ 31 ∧ col ≤ 63 ∧ bit = true ∧ pixelAt k.fb row col = true) := by
  unfold drawPixel
  split
  · next h => simp [h.1, h.2.1, h.2.2]
  · next h => constructor
              · exact Or.inl
              · rintro (h' | h')
                · exact h'
                · exact absurd ⟨h'.1, h'.2.1, h'.2.2.1⟩ h

/-- The cells the first `n` columns of one sprite row flip. -/
def columnCell (row cx n : Nat) (b : Byte) (r c : Nat) : Prop :=
  r = row ∧ r ≤ 31 ∧ c ≤ 63 ∧ cx ≤ c ∧ c < cx + n ∧ b.getLsbD (7 - (c - cx)) = true

theorem drawColumns_spec (row cx : Nat) (b : Byte) (n : Nat) (k : Canvas) :
    (∀ r c, pixelAt (drawColumns row cx b n k).fb r c = true ↔
      ¬(pixelAt k.fb r c = true ↔ columnCell row cx n b r c)) ∧
    ((drawColumns row cx b n k).collision = true ↔ k.collision = true ∨
      ∃ r c, columnCell row cx n b r c ∧ pixelAt k.fb r c = true) := by
  induction n with
  | zero =>
    refine ⟨fun r c => ?_, ?_⟩
    · have : ¬columnCell row cx 0 b r c := by rintro ⟨-, -, -, h1, h2, -⟩; omega
      simp [drawColumns, this]
    · constructor
      · exact Or.inl
      · rintro (h | ⟨r, c, ⟨-, -, -, h1, h2, -⟩, -⟩)
        · exact h
        · omega
  | succ n ih =>
    have split_cell : ∀ r c, columnCell row cx (n + 1) b r c ↔ columnCell row cx n b r c ∨
        (r = row ∧ c = cx + n ∧ row ≤ 31 ∧ cx + n ≤ 63 ∧ b.getLsbD (7 - n) = true) := by
      intro r c
      by_cases e : c = cx + n
      · subst e
        have : cx + n - cx = n := by omega
        simp only [columnCell, this]; constructor
        · rintro ⟨rfl, h1, h2, -, -, h3⟩; exact Or.inr ⟨rfl, trivial, h1, h2, h3⟩
        · rintro (⟨-, -, -, -, h, -⟩ | ⟨rfl, -, h1, h2, h3⟩)
          · omega
          · exact ⟨rfl, h1, h2, by omega, by omega, h3⟩
      · simp only [columnCell]; constructor
        · rintro ⟨h0, h1, h2, h3, h4, h5⟩; exact Or.inl ⟨h0, h1, h2, h3, by omega, h5⟩
        · rintro (⟨h0, h1, h2, h3, h4, h5⟩ | ⟨-, h, -⟩)
          · exact ⟨h0, h1, h2, h3, by omega, h5⟩
          · exact absurd h e
    have fresh : ∀ r c, columnCell row cx n b r c → ¬(r = row ∧ c = cx + n ∧ row ≤ 31 ∧
        cx + n ≤ 63 ∧ b.getLsbD (7 - n) = true) := by
      rintro r c ⟨-, -, -, -, h, -⟩ ⟨-, h', -⟩; omega
    have fresh' : ¬columnCell row cx n b row (cx + n) := by rintro ⟨-, -, -, -, h, -⟩; omega
    refine ⟨fun r c => ?_, ?_⟩
    · rw [drawColumns, pixelAt_drawPixel, split_cell, xor_decide_iff, ih.1 r c]
      exact flip_flip (fresh r c)
    · rw [drawColumns, collision_drawPixel, ih.2, ih.1]
      constructor
      · rintro ((h | ⟨r, c, h, h'⟩) | ⟨h1, h2, h3, h4⟩)
        · exact Or.inl h
        · exact Or.inr ⟨r, c, (split_cell r c).2 (Or.inl h), h'⟩
        · exact Or.inr ⟨row, cx + n, (split_cell _ _).2 (Or.inr ⟨rfl, rfl, h1, h2, h3⟩),
            (lit_before (Iff.rfl) fresh').1 h4⟩
      · rintro (h | ⟨r, c, h, h'⟩)
        · exact Or.inl (Or.inl h)
        · rcases (split_cell r c).1 h with h | ⟨rfl, rfl, h1, h2, h3⟩
          · exact Or.inl (Or.inr ⟨r, c, h, h'⟩)
          · exact Or.inr ⟨h1, h2, h3, (lit_before (Iff.rfl) fresh').2 h'⟩

/-- The cells the sprite's rows from `row` downward flip: inside the buffer, and their sprite bit is 1. -/
def rowsCell (cx row : Nat) (bs : List Byte) (r c : Nat) : Prop :=
  row ≤ r ∧ r ≤ 31 ∧ c ≤ 63 ∧ cx ≤ c ∧ c < cx + 8 ∧
    ∃ h : r - row < bs.length, (bs[r - row]).getLsbD (7 - (c - cx)) = true

theorem rowsCell_cons (cx row : Nat) (b : Byte) (bs : List Byte) (r c : Nat) :
    rowsCell cx row (b :: bs) r c ↔ columnCell row cx 8 b r c ∨ rowsCell cx (row + 1) bs r c := by
  rcases Nat.lt_trichotomy row r with h | h | h
  · obtain ⟨d, rfl⟩ : ∃ d, r = row + 1 + d := ⟨r - (row + 1), by omega⟩
    have e1 : row + 1 + d - row = d + 1 := by omega
    have e2 : row + 1 + d - (row + 1) = d := by omega
    simp only [rowsCell, columnCell, e1, e2, List.getElem_cons_succ, List.length_cons]
    constructor
    · rintro ⟨-, h1, h2, h3, h4, h5, h6⟩
      exact Or.inr ⟨by omega, h1, h2, h3, h4, by omega, h6⟩
    · rintro (⟨h, -⟩ | ⟨-, h1, h2, h3, h4, h5, h6⟩)
      · omega
      · exact ⟨by omega, h1, h2, h3, h4, by omega, h6⟩
  · subst h
    simp only [rowsCell, columnCell, Nat.sub_self, List.getElem_cons_zero, List.length_cons]
    constructor
    · rintro ⟨-, h1, h2, h3, h4, h5, h6⟩
      exact Or.inl ⟨trivial, h1, h2, h3, h4, h6⟩
    · rintro (⟨-, h1, h2, h3, h4, h6⟩ | ⟨h, -⟩)
      · exact ⟨le_refl _, h1, h2, h3, h4, by omega, h6⟩
      · omega
  · constructor
    · rintro ⟨h', -⟩; omega
    · rintro (⟨h', -⟩ | ⟨h', -⟩) <;> omega

/-- Everything the drawing loop does (R91): it flips exactly the cells of the sprite inside the buffer, and
reports a collision exactly when one of them was lit. -/
theorem drawRows_spec (cx row : Nat) (bs : List Byte) (k : Canvas) :
    (∀ r c, pixelAt (drawRows cx row bs k).fb r c = true ↔
      ¬(pixelAt k.fb r c = true ↔ rowsCell cx row bs r c)) ∧
    ((drawRows cx row bs k).collision = true ↔ k.collision = true ∨
      ∃ r c, rowsCell cx row bs r c ∧ pixelAt k.fb r c = true) := by
  induction bs generalizing row k with
  | nil =>
    have none_ : ∀ r c, ¬rowsCell cx row [] r c := by
      rintro r c ⟨-, -, -, -, -, h, -⟩; simp at h
    refine ⟨fun r c => by simp [drawRows, none_], ?_⟩
    constructor
    · exact Or.inl
    · rintro (h | ⟨r, c, h, -⟩)
      · exact h
      · exact absurd h (none_ r c)
  | cons b bs ih =>
    obtain ⟨hp, hc⟩ := drawColumns_spec row cx b 8 k
    obtain ⟨ip, ic⟩ := ih (row + 1) (drawRow row cx b k)
    have fresh : ∀ r c, columnCell row cx 8 b r c → ¬rowsCell cx (row + 1) bs r c := by
      rintro r c ⟨rfl, -⟩ ⟨h, -⟩; omega
    refine ⟨fun r c => ?_, ?_⟩
    · rw [drawRows, rowsCell_cons, ip r c, drawRow, hp r c]
      exact flip_flip (fresh r c)
    · rw [drawRows, ic, drawRow, hc]
      constructor
      · rintro ((h | ⟨r, c, h, h'⟩) | ⟨r, c, h, h'⟩)
        · exact Or.inl h
        · exact Or.inr ⟨r, c, (rowsCell_cons ..).2 (Or.inl h), h'⟩
        · exact Or.inr ⟨r, c, (rowsCell_cons ..).2 (Or.inr h),
            (lit_before (hp r c) (fun h1 => fresh r c h1 h)).1 h'⟩
      · rintro (h | ⟨r, c, h, h'⟩)
        · exact Or.inl (Or.inl h)
        · rcases (rowsCell_cons ..).1 h with h | h
          · exact Or.inl (Or.inr ⟨r, c, h, h'⟩)
          · exact Or.inr ⟨r, c, h, (lit_before (hp r c) (fun h1 => fresh r c h1 h)).2 h'⟩

end Sys2Proof.Machine
end

