-- ==== Sys2Proof/Laws/Events.lean ====
section
/-! SUPPORT. What each of the other events can do: `RESET` (70_reset_and_hazards.md R170, 10_state.md R33), `LOAD`
(R171), `SETKEYS` (60_exceptions.md R160) and `TICK` (R157). -/

namespace Sys2Proof.Machine

/-! ### The font in memory (20_memory.md R52) -/

@[simp] theorem length_fontBytes (f : Font) : (fontBytes f).length = 80 := by
  have e : (List.map (List.length ∘ Vector.toList) f.toList) = List.map (fun _ => 5) f.toList := by
    apply List.map_congr_left; intro a _; simp
  rw [fontBytes, List.length_flatten, List.map_map, e]; simp

/-- An element of a list of blocks of one length, laid end to end. -/
theorem getElem?_flatten_blocks {α : Type} (n : Nat) (L : List (List α)) (d k : Nat)
    (h : ∀ l ∈ L, l.length = n) (hk : k < n) : L.flatten[d * n + k]? = L[d]?.bind (fun l => l[k]?) := by
  induction L generalizing d with
  | nil => simp
  | cons l L ih =>
    have hl : l.length = n := h l (by simp)
    cases d with
    | zero => simp [List.getElem?_append_left, hl, hk]
    | succ d =>
      rw [List.flatten_cons, List.getElem?_append_right (by rw [hl, Nat.succ_mul]; omega), hl,
        show (d + 1) * n + k - n = d * n + k by rw [Nat.succ_mul]; omega,
        ih d (fun l hl => h l (by simp [hl]))]
      simp

/-- Byte `k` of the glyph of digit `d` lies at `5 * d + k`. -/
theorem getElem_fontBytes (f : Font) {d k : Nat} (hd : d < 16) (hk : k < 5) :
    (fontBytes f)[d * 5 + k]'(by rw [length_fontBytes]; omega) = f[d][k] := by
  have := getElem?_flatten_blocks 5 (f.toList.map Vector.toList) d k (by simp) hk
  rw [List.getElem?_eq_getElem (by rw [← fontBytes, length_fontBytes]; omega)] at this
  simpa [fontBytes, hd, hk] using this

/-- Memory after `RESET` is canonical under every font. -/
theorem wf_resetWith (c : Config) : Memory.wf (resetWith c).mem = true :=
  wf_writeBytes _ _ _ (by rw [length_fontBytes]; decide) rfl

/-! ### LOAD -/

theorem romFits_iff (bytes : List Byte) : romFits bytes = true ↔ bytes.length ≤ 3584 := decide_eq_true_iff

/-- Everything `LOAD` can do (R171): store the program in a running core where it fits, else nothing. -/
theorem load_cases (bytes : List Byte) (s : State) :
    (s.status = .run ∧ bytes.length ≤ 3584 ∧ loadResult bytes s = .ok ∧
      load bytes s = { s with mem := writeBytes s.mem progBase bytes }) ∨
    (s.status = .run ∧ 3584 < bytes.length ∧ loadResult bytes s = .romTooLarge ∧ load bytes s = s) ∨
    (s.status ≠ .run ∧ loadResult bytes s = .ignored ∧ load bytes s = s) := by
  cases hs : s.status with
  | fault f =>
    have hl : loadResult bytes s = .ignored := by simp only [loadResult, hs]
    exact Or.inr (Or.inr ⟨by simp, hl, by simp only [load, hl]⟩)
  | run =>
    by_cases hf : bytes.length ≤ 3584
    · have hl : loadResult bytes s = .ok := by simp only [loadResult, hs, (romFits_iff bytes).2 hf, if_true]
      exact Or.inl ⟨rfl, hf, hl, by simp only [load, hl, ← hs]⟩
    · have hr : ¬romFits bytes = true := fun e => hf ((romFits_iff bytes).1 e)
      have hl : loadResult bytes s = .romTooLarge := by simp only [loadResult, hs, if_neg hr]
      exact Or.inr (Or.inl ⟨rfl, by omega, hl, by simp only [load, hl]⟩)

/-! ### SETKEYS and TICK -/

/-- Everything `SETKEYS` can do (R160): write the snapshot of a running core, else nothing. -/
theorem setKeys_cases (k : Vector Bool 16) (s : State) :
    (s.status = .run ∧ setKeys k s = { s with keys := k }) ∨ (s.status ≠ .run ∧ setKeys k s = s) := by
  cases hs : s.status with
  | fault f => exact Or.inr ⟨by simp, by simp only [setKeys, hs]⟩
  | run => exact Or.inl ⟨rfl, by simp only [setKeys, hs]⟩

/-- A countdown takes one and stops at 0 (R157). -/
theorem toNat_countDown (t : Byte) : (countDown t).toNat = t.toNat - 1 := by revert t; decide

/-- Everything `TICK` can do (R157): count down the timers of a running core, else nothing. -/
theorem tick_cases (s : State) :
    (s.status = .run ∧ tick s = { s with dt := countDown s.dt, st := countDown s.st }) ∨
    (s.status ≠ .run ∧ tick s = s) := by
  cases hs : s.status with
  | fault f => exact Or.inr ⟨by simp, by simp only [tick, hs]⟩
  | run => exact Or.inl ⟨rfl, by simp only [tick, hs]⟩

@[simp] theorem tick_status (s : State) : (tick s).status = s.status := by unfold tick; split <;> rfl
@[simp] theorem tick_pc (s : State) : (tick s).pc = s.pc := by unfold tick; split <;> rfl
@[simp] theorem tick_mem (s : State) : (tick s).mem = s.mem := by unfold tick; split <;> rfl
@[simp] theorem tick_keys (s : State) : (tick s).keys = s.keys := by unfold tick; split <;> rfl
@[simp] theorem tick_v (s : State) : (tick s).v = s.v := by unfold tick; split <;> rfl

end Sys2Proof.Machine
end

