-- ==== Sys2Proof/Laws/PerInstr.lean ====
section
/-! SUPPORT. A fact about every instruction as syntax, proved per constructor: its word lies in its own row of
the opcode map, and that row is one of the map's rows (30_encoding.md R75). -/

namespace Sys2Proof.Laws.EncodesInRow

/-- Under every configuration the encoded word of the instruction satisfies the instruction's row, and the row
is one of the 34. -/
def Statement (i : Instr) : Prop :=
  ∀ c : Config, (rowOf c i).holds (encodeWord c i) = true ∧ rowOf c i ∈ opcodeRows c

section Formats

theorem holds_family (op : Nibble) {p w : Word} (h : p = formatA op 0) (hw : fieldOp w = op) :
    Row.holds ⟨p, 0xF000⟩ w = true := by
  subst h; simpa [Row.holds] using (family_row_iff op w).2 hw

theorem holds_family_n (op n : Nibble) {p w : Word} (h : p = formatR op 0 0 n) (h1 : fieldOp w = op)
    (h2 : fieldN w = n) : Row.holds ⟨p, 0xF00F⟩ w = true := by
  subst h; simpa [Row.holds] using (family_n_row_iff op n w).2 ⟨h1, h2⟩

theorem holds_family_kk (op : Nibble) (kk : Byte) {p w : Word} (h : p = formatI op 0 kk)
    (h1 : fieldOp w = op) (h2 : fieldKk w = kk) : Row.holds ⟨p, 0xF0FF⟩ w = true := by
  subst h; simpa [Row.holds] using (family_kk_row_iff op kk w).2 ⟨h1, h2⟩

/-- The row of shift-left at any sub-opcode (R77). -/
theorem shl_pattern : ∀ n : Nibble, (0x8000 ||| n.setWidth 16 : Word) = formatR 8 0 0 n := by decide

end Formats

theorem cls : Statement .cls := fun c =>
  ⟨by simp [Row.holds, rowOf, encodeWord],
    by simp [opcodeRows, rowsLow, rowsEight, rowsHigh, rowOf]⟩

theorem ret : Statement .ret := fun c =>
  ⟨by simp [Row.holds, rowOf, encodeWord],
    by simp [opcodeRows, rowsLow, rowsEight, rowsHigh, rowOf]⟩

theorem jp (nnn : Addr12) : Statement (.jp nnn) := fun c =>
  ⟨holds_family 0x1 (by decide) (by simp [encodeWord]),
    by simp [opcodeRows, rowsLow, rowsEight, rowsHigh, rowOf]⟩

theorem call (nnn : Addr12) : Statement (.call nnn) := fun c =>
  ⟨holds_family 0x2 (by decide) (by simp [encodeWord]),
    by simp [opcodeRows, rowsLow, rowsEight, rowsHigh, rowOf]⟩

theorem seVxKk (x : RegIdx) (kk : Byte) : Statement (.seVxKk x kk) := fun c =>
  ⟨holds_family 0x3 (by decide) (by simp [encodeWord]),
    by simp [opcodeRows, rowsLow, rowsEight, rowsHigh, rowOf]⟩

theorem sneVxKk (x : RegIdx) (kk : Byte) : Statement (.sneVxKk x kk) := fun c =>
  ⟨holds_family 0x4 (by decide) (by simp [encodeWord]),
    by simp [opcodeRows, rowsLow, rowsEight, rowsHigh, rowOf]⟩

theorem seVxVy (x y : RegIdx) : Statement (.seVxVy x y) := fun c =>
  ⟨holds_family 0x5 (by decide) (by simp [encodeWord]),
    by simp [opcodeRows, rowsLow, rowsEight, rowsHigh, rowOf]⟩

theorem ldVxKk (x : RegIdx) (kk : Byte) : Statement (.ldVxKk x kk) := fun c =>
  ⟨holds_family 0x6 (by decide) (by simp [encodeWord]),
    by simp [opcodeRows, rowsLow, rowsEight, rowsHigh, rowOf]⟩

theorem addVxKk (x : RegIdx) (kk : Byte) : Statement (.addVxKk x kk) := fun c =>
  ⟨holds_family 0x7 (by decide) (by simp [encodeWord]),
    by simp [opcodeRows, rowsLow, rowsEight, rowsHigh, rowOf]⟩

theorem ldVxVy (x y : RegIdx) : Statement (.ldVxVy x y) := fun c =>
  ⟨holds_family_n 0x8 0x0 (by decide) (by simp [encodeWord]) (by simp [encodeWord]),
    by simp [opcodeRows, rowsLow, rowsEight, rowsHigh, rowOf]⟩

theorem orVxVy (x y : RegIdx) : Statement (.orVxVy x y) := fun c =>
  ⟨holds_family_n 0x8 0x1 (by decide) (by simp [encodeWord]) (by simp [encodeWord]),
    by simp [opcodeRows, rowsLow, rowsEight, rowsHigh, rowOf]⟩

theorem andVxVy (x y : RegIdx) : Statement (.andVxVy x y) := fun c =>
  ⟨holds_family_n 0x8 0x2 (by decide) (by simp [encodeWord]) (by simp [encodeWord]),
    by simp [opcodeRows, rowsLow, rowsEight, rowsHigh, rowOf]⟩

theorem xorVxVy (x y : RegIdx) : Statement (.xorVxVy x y) := fun c =>
  ⟨holds_family_n 0x8 0x3 (by decide) (by simp [encodeWord]) (by simp [encodeWord]),
    by simp [opcodeRows, rowsLow, rowsEight, rowsHigh, rowOf]⟩

theorem addVxVy (x y : RegIdx) : Statement (.addVxVy x y) := fun c =>
  ⟨holds_family_n 0x8 0x4 (by decide) (by simp [encodeWord]) (by simp [encodeWord]),
    by simp [opcodeRows, rowsLow, rowsEight, rowsHigh, rowOf]⟩

theorem subVxVy (x y : RegIdx) : Statement (.subVxVy x y) := fun c =>
  ⟨holds_family_n 0x8 0x5 (by decide) (by simp [encodeWord]) (by simp [encodeWord]),
    by simp [opcodeRows, rowsLow, rowsEight, rowsHigh, rowOf]⟩

theorem shrVx (x : RegIdx) : Statement (.shrVx x) := fun c =>
  ⟨holds_family_n 0x8 0x6 (by decide) (by simp [encodeWord]) (by simp [encodeWord]),
    by simp [opcodeRows, rowsLow, rowsEight, rowsHigh, rowOf]⟩

theorem subnVxVy (x y : RegIdx) : Statement (.subnVxVy x y) := fun c =>
  ⟨holds_family_n 0x8 0x7 (by decide) (by simp [encodeWord]) (by simp [encodeWord]),
    by simp [opcodeRows, rowsLow, rowsEight, rowsHigh, rowOf]⟩

theorem shlVx (x : RegIdx) : Statement (.shlVx x) := fun c =>
  ⟨holds_family_n 0x8 c.shlSubop (shl_pattern c.shlSubop) (by simp [encodeWord]) (by simp [encodeWord]),
    by simp [opcodeRows, rowsLow, rowsEight, rowsHigh, rowOf]⟩

theorem sneVxVy (x y : RegIdx) : Statement (.sneVxVy x y) := fun c =>
  ⟨holds_family 0x9 (by decide) (by simp [encodeWord]),
    by simp [opcodeRows, rowsLow, rowsEight, rowsHigh, rowOf]⟩

theorem ldINnn (nnn : Addr12) : Statement (.ldINnn nnn) := fun c =>
  ⟨holds_family 0xA (by decide) (by simp [encodeWord]),
    by simp [opcodeRows, rowsLow, rowsEight, rowsHigh, rowOf]⟩

theorem jpV0Nnn (nnn : Addr12) : Statement (.jpV0Nnn nnn) := fun c =>
  ⟨holds_family 0xB (by decide) (by simp [encodeWord]),
    by simp [opcodeRows, rowsLow, rowsEight, rowsHigh, rowOf]⟩

theorem rndVxKk (x : RegIdx) (kk : Byte) : Statement (.rndVxKk x kk) := fun c =>
  ⟨holds_family 0xC (by decide) (by simp [encodeWord]),
    by simp [opcodeRows, rowsLow, rowsEight, rowsHigh, rowOf]⟩

theorem drwVxVyN (x y : RegIdx) (n : Nibble) : Statement (.drwVxVyN x y n) := fun c =>
  ⟨holds_family 0xD (by decide) (by simp [encodeWord]),
    by simp [opcodeRows, rowsLow, rowsEight, rowsHigh, rowOf]⟩

theorem skpVx (x : RegIdx) : Statement (.skpVx x) := fun c =>
  ⟨holds_family_kk 0xE 0x9E (by decide) (by simp [encodeWord]) (by simp [encodeWord]),
    by simp [opcodeRows, rowsLow, rowsEight, rowsHigh, rowOf]⟩

theorem sknpVx (x : RegIdx) : Statement (.sknpVx x) := fun c =>
  ⟨holds_family_kk 0xE 0xA1 (by decide) (by simp [encodeWord]) (by simp [encodeWord]),
    by simp [opcodeRows, rowsLow, rowsEight, rowsHigh, rowOf]⟩

theorem ldVxDt (x : RegIdx) : Statement (.ldVxDt x) := fun c =>
  ⟨holds_family_kk 0xF 0x07 (by decide) (by simp [encodeWord]) (by simp [encodeWord]),
    by simp [opcodeRows, rowsLow, rowsEight, rowsHigh, rowOf]⟩

theorem ldVxK (x : RegIdx) : Statement (.ldVxK x) := fun c =>
  ⟨holds_family_kk 0xF 0x0A (by decide) (by simp [encodeWord]) (by simp [encodeWord]),
    by simp [opcodeRows, rowsLow, rowsEight, rowsHigh, rowOf]⟩

theorem ldDtVx (x : RegIdx) : Statement (.ldDtVx x) := fun c =>
  ⟨holds_family_kk 0xF 0x15 (by decide) (by simp [encodeWord]) (by simp [encodeWord]),
    by simp [opcodeRows, rowsLow, rowsEight, rowsHigh, rowOf]⟩

theorem ldStVx (x : RegIdx) : Statement (.ldStVx x) := fun c =>
  ⟨holds_family_kk 0xF 0x18 (by decide) (by simp [encodeWord]) (by simp [encodeWord]),
    by simp [opcodeRows, rowsLow, rowsEight, rowsHigh, rowOf]⟩

theorem addIVx (x : RegIdx) : Statement (.addIVx x) := fun c =>
  ⟨holds_family_kk 0xF 0x1E (by decide) (by simp [encodeWord]) (by simp [encodeWord]),
    by simp [opcodeRows, rowsLow, rowsEight, rowsHigh, rowOf]⟩

theorem ldFVx (x : RegIdx) : Statement (.ldFVx x) := fun c =>
  ⟨holds_family_kk 0xF 0x29 (by decide) (by simp [encodeWord]) (by simp [encodeWord]),
    by simp [opcodeRows, rowsLow, rowsEight, rowsHigh, rowOf]⟩

theorem ldBVx (x : RegIdx) : Statement (.ldBVx x) := fun c =>
  ⟨holds_family_kk 0xF 0x33 (by decide) (by simp [encodeWord]) (by simp [encodeWord]),
    by simp [opcodeRows, rowsLow, rowsEight, rowsHigh, rowOf]⟩

theorem ldMemVx (x : RegIdx) : Statement (.ldMemVx x) := fun c =>
  ⟨holds_family_kk 0xF 0x55 (by decide) (by simp [encodeWord]) (by simp [encodeWord]),
    by simp [opcodeRows, rowsLow, rowsEight, rowsHigh, rowOf]⟩

theorem ldVxMem (x : RegIdx) : Statement (.ldVxMem x) := fun c =>
  ⟨holds_family_kk 0xF 0x65 (by decide) (by simp [encodeWord]) (by simp [encodeWord]),
    by simp [opcodeRows, rowsLow, rowsEight, rowsHigh, rowOf]⟩

end Sys2Proof.Laws.EncodesInRow
end

