-- ==== Sys2Proof/Laws/OpcodeMap.lean ====
section
/-! SUPPORT. The words of an instruction against the decoder, the encoder and the opcode map (30_encoding.md R74,
R75, R80, R84): three views of one set of words. -/

namespace Sys2Proof

open Sys2Proof.Machine

/-- A free shift-left sub-opcode is none of the other sub-opcodes of family 8 (00_scope.md R6). -/
theorem subop_ne {c : Config} (hc : c.shlSubopFree = true) (k : Nibble) (hk : k.toNat < 8) :
    c.shlSubop ≠ k := by
  have h8 : 8 ≤ c.shlSubop.toNat := by simpa [Config.shlSubopFree] using hc
  rintro rfl; omega

/-- Every word of an instruction decodes to it (R74). -/
theorem decodeWord_words {c : Config} {w : Word} {i : Instr} (hc : c.shlSubopFree = true)
    (h : wordsOf c w i) : decodeWord c w = .ok i := by
  have ne := subop_ne hc
  cases i <;> simp only [wordsOf] at h
  case seVxVy => obtain ⟨n, rfl⟩ := h; simp [decodeWord]
  case sneVxVy => obtain ⟨n, rfl⟩ := h; simp [decodeWord]
  case shrVx => obtain ⟨n, rfl⟩ := h; simp [decodeWord, decodeFamily8]
  case shlVx => obtain ⟨n, rfl⟩ := h; simp [decodeWord, decodeFamily8, ne]
  all_goals subst h
  all_goals simp [decodeWord, decodeFamily0, decodeFamily8, decodeFamilyE, decodeFamilyF]

/-- What the encoder writes is one of the instruction's words (R84). -/
theorem encodeWord_words (c : Config) (i : Instr) : wordsOf c (encodeWord c i) i := by
  cases i <;> first | rfl | exact ⟨_, rfl⟩

/-- Clearing the last nibble of a word. -/
theorem clear_n (w : Word) :
    w &&& 0xFFF0 = formatR (fieldOp w) (regOf (fieldX w)) (fieldY w) 0 := by
  apply BitVec.eq_of_getLsbD_eq
  intro i hi
  rw [getLsbD_formatR, nibbleOf_regOf, fieldOp, fieldX, fieldY, BitVec.getLsbD_and]
  interval_cases i <;> simp

/-- Clearing the third nibble of a word. -/
theorem clear_y (w : Word) :
    w &&& 0xFF0F = formatR (fieldOp w) (regOf (fieldX w)) 0 (fieldN w) := by
  apply BitVec.eq_of_getLsbD_eq
  intro i hi
  rw [getLsbD_formatR, nibbleOf_regOf, fieldOp, fieldX, fieldN, BitVec.getLsbD_and]
  interval_cases i <;> simp

open Sys2Proof.Laws.EncodesInRow in
/-- Every word of an instruction satisfies the instruction's row (R75). -/
theorem row_of_words {c : Config} {w : Word} {i : Instr} (h : wordsOf c w i) :
    (rowOf c i).holds w = true := by
  cases i <;> simp only [wordsOf] at h
  case cls => subst h; simp [rowOf, Row.holds]
  case ret => subst h; simp [rowOf, Row.holds]
  case seVxVy => obtain ⟨n, rfl⟩ := h; exact holds_family 5 (by decide) (by simp)
  case sneVxVy => obtain ⟨n, rfl⟩ := h; exact holds_family 9 (by decide) (by simp)
  case shrVx => obtain ⟨n, rfl⟩ := h; exact holds_family_n 8 6 (by decide) (by simp) (by simp)
  case shlVx => obtain ⟨n, rfl⟩ := h; exact holds_family_n 8 c.shlSubop (shl_pattern _) (by simp) (by simp)
  case jp => subst h; exact holds_family 0x1 (by decide) (by simp)
  case call => subst h; exact holds_family 0x2 (by decide) (by simp)
  case seVxKk => subst h; exact holds_family 0x3 (by decide) (by simp)
  case sneVxKk => subst h; exact holds_family 0x4 (by decide) (by simp)
  case ldVxKk => subst h; exact holds_family 0x6 (by decide) (by simp)
  case addVxKk => subst h; exact holds_family 0x7 (by decide) (by simp)
  case ldINnn => subst h; exact holds_family 0xA (by decide) (by simp)
  case jpV0Nnn => subst h; exact holds_family 0xB (by decide) (by simp)
  case rndVxKk => subst h; exact holds_family 0xC (by decide) (by simp)
  case drwVxVyN => subst h; exact holds_family 0xD (by decide) (by simp)
  case ldVxVy => subst h; exact holds_family_n 0x8 0 (by decide) (by simp) (by simp)
  case orVxVy => subst h; exact holds_family_n 0x8 1 (by decide) (by simp) (by simp)
  case andVxVy => subst h; exact holds_family_n 0x8 2 (by decide) (by simp) (by simp)
  case xorVxVy => subst h; exact holds_family_n 0x8 3 (by decide) (by simp) (by simp)
  case addVxVy => subst h; exact holds_family_n 0x8 4 (by decide) (by simp) (by simp)
  case subVxVy => subst h; exact holds_family_n 0x8 5 (by decide) (by simp) (by simp)
  case subnVxVy => subst h; exact holds_family_n 0x8 7 (by decide) (by simp) (by simp)
  case skpVx => subst h; exact holds_family_kk 0xE 0x9E (by decide) (by simp) (by simp)
  case sknpVx => subst h; exact holds_family_kk 0xE 0xA1 (by decide) (by simp) (by simp)
  case ldVxDt => subst h; exact holds_family_kk 0xF 0x07 (by decide) (by simp) (by simp)
  case ldVxK => subst h; exact holds_family_kk 0xF 0x0A (by decide) (by simp) (by simp)
  case ldDtVx => subst h; exact holds_family_kk 0xF 0x15 (by decide) (by simp) (by simp)
  case ldStVx => subst h; exact holds_family_kk 0xF 0x18 (by decide) (by simp) (by simp)
  case addIVx => subst h; exact holds_family_kk 0xF 0x1E (by decide) (by simp) (by simp)
  case ldFVx => subst h; exact holds_family_kk 0xF 0x29 (by decide) (by simp) (by simp)
  case ldBVx => subst h; exact holds_family_kk 0xF 0x33 (by decide) (by simp) (by simp)
  case ldMemVx => subst h; exact holds_family_kk 0xF 0x55 (by decide) (by simp) (by simp)
  case ldVxMem => subst h; exact holds_family_kk 0xF 0x65 (by decide) (by simp) (by simp)

/-- A word that satisfies a row of the map is a word of the instruction whose row it is (R75). -/
theorem words_of_row {c : Config} {w : Word} {r : Row} (hr : r ∈ opcodeRows c) (h : r.holds w = true) :
    ∃ i, r = rowOf c i ∧ wordsOf c w i := by
  have eA := word_eq_formatA w
  have eI := word_eq_formatI w
  have eR := word_eq_formatR w
  have fam : ∀ (op : Nibble) (p : Word), p = formatA op 0 → Row.holds ⟨p, 0xF000⟩ w = true → fieldOp w = op := by
    rintro op p rfl hp; exact (family_row_iff op w).1 (by simpa [Row.holds] using hp)
  have famn : ∀ (op n : Nibble) (p : Word), p = formatR op 0 0 n →
      Row.holds ⟨p, 0xF00F⟩ w = true → fieldOp w = op ∧ fieldN w = n := by
    rintro op n p rfl hp; exact (family_n_row_iff op n w).1 (by simpa [Row.holds] using hp)
  have famk : ∀ (op : Nibble) (k : Byte) (p : Word), p = formatI op 0 k →
      Row.holds ⟨p, 0xF0FF⟩ w = true → fieldOp w = op ∧ fieldKk w = k := by
    rintro op n p rfl hp; exact (family_kk_row_iff op n w).1 (by simpa [Row.holds] using hp)
  simp only [opcodeRows, rowsLow, rowsEight, rowsHigh, List.mem_append, List.mem_cons, List.not_mem_nil, or_false, or_assoc] at hr
  have all1 : w &&& 65535 = w := by
    have : (65535 : Word) = BitVec.allOnes 16 := by decide
    rw [this, BitVec.and_allOnes]
  rcases hr with rfl | rfl | rfl | rfl | rfl | rfl | rfl | rfl | rfl | rfl | rfl | rfl | rfl | rfl | rfl |
      rfl | rfl | rfl | rfl | rfl | rfl | rfl | rfl | rfl | rfl | rfl | rfl | rfl | rfl | rfl | rfl | rfl | rfl | rfl
  · exact ⟨.cls, rfl, all1.symm.trans (by simpa only [rowOf, Row.holds, beq_iff_eq] using h)⟩
  · exact ⟨.ret, rfl, all1.symm.trans (by simpa only [rowOf, Row.holds, beq_iff_eq] using h)⟩
  · have := fam 1 _ (by decide) h; rw [this] at eA; exact ⟨.jp (fieldNnn w), rfl, eA⟩
  · have := fam 2 _ (by decide) h; rw [this] at eA; exact ⟨.call (fieldNnn w), rfl, eA⟩
  · have := fam 3 _ (by decide) h; rw [this] at eI; exact ⟨.seVxKk (regOf (fieldX w)) (fieldKk w), rfl, eI⟩
  · have := fam 4 _ (by decide) h; rw [this] at eI; exact ⟨.sneVxKk (regOf (fieldX w)) (fieldKk w), rfl, eI⟩
  · have := fam 5 _ (by decide) h; rw [this] at eR; exact ⟨.seVxVy (regOf (fieldX w)) (regOf (fieldY w)), rfl, _, eR⟩
  · have := fam 6 _ (by decide) h; rw [this] at eI; exact ⟨.ldVxKk (regOf (fieldX w)) (fieldKk w), rfl, eI⟩
  · have := fam 7 _ (by decide) h; rw [this] at eI; exact ⟨.addVxKk (regOf (fieldX w)) (fieldKk w), rfl, eI⟩
  · have := famn 8 0 _ (by decide) h; rw [this.1, this.2] at eR; exact ⟨.ldVxVy (regOf (fieldX w)) (regOf (fieldY w)), rfl, eR⟩
  · have := famn 8 1 _ (by decide) h; rw [this.1, this.2] at eR; exact ⟨.orVxVy (regOf (fieldX w)) (regOf (fieldY w)), rfl, eR⟩
  · have := famn 8 2 _ (by decide) h; rw [this.1, this.2] at eR; exact ⟨.andVxVy (regOf (fieldX w)) (regOf (fieldY w)), rfl, eR⟩
  · have := famn 8 3 _ (by decide) h; rw [this.1, this.2] at eR; exact ⟨.xorVxVy (regOf (fieldX w)) (regOf (fieldY w)), rfl, eR⟩
  · have := famn 8 4 _ (by decide) h; rw [this.1, this.2] at eR; exact ⟨.addVxVy (regOf (fieldX w)) (regOf (fieldY w)), rfl, eR⟩
  · have := famn 8 5 _ (by decide) h; rw [this.1, this.2] at eR; exact ⟨.subVxVy (regOf (fieldX w)) (regOf (fieldY w)), rfl, eR⟩
  · have := famn 8 6 _ (by decide) h; rw [this.1, this.2] at eR; exact ⟨.shrVx (regOf (fieldX w)), rfl, _, eR⟩
  · have := famn 8 7 _ (by decide) h; rw [this.1, this.2] at eR; exact ⟨.subnVxVy (regOf (fieldX w)) (regOf (fieldY w)), rfl, eR⟩
  · have := famn 8 c.shlSubop _ (Laws.EncodesInRow.shl_pattern _) h; rw [this.1, this.2] at eR; exact ⟨.shlVx (regOf (fieldX w)), rfl, _, eR⟩
  · have := fam 9 _ (by decide) h; rw [this] at eR; exact ⟨.sneVxVy (regOf (fieldX w)) (regOf (fieldY w)), rfl, _, eR⟩
  · have := fam 10 _ (by decide) h; rw [this] at eA; exact ⟨.ldINnn (fieldNnn w), rfl, eA⟩
  · have := fam 11 _ (by decide) h; rw [this] at eA; exact ⟨.jpV0Nnn (fieldNnn w), rfl, eA⟩
  · have := fam 12 _ (by decide) h; rw [this] at eI; exact ⟨.rndVxKk (regOf (fieldX w)) (fieldKk w), rfl, eI⟩
  · have := fam 13 _ (by decide) h; rw [this] at eR; exact ⟨.drwVxVyN (regOf (fieldX w)) (regOf (fieldY w)) (fieldN w), rfl, eR⟩
  · have := famk 14 0x9E _ (by decide) h; rw [this.1, this.2] at eI; exact ⟨.skpVx (regOf (fieldX w)), rfl, eI⟩
  · have := famk 14 0xA1 _ (by decide) h; rw [this.1, this.2] at eI; exact ⟨.sknpVx (regOf (fieldX w)), rfl, eI⟩
  · have := famk 15 0x07 _ (by decide) h; rw [this.1, this.2] at eI; exact ⟨.ldVxDt (regOf (fieldX w)), rfl, eI⟩
  · have := famk 15 0x0A _ (by decide) h; rw [this.1, this.2] at eI; exact ⟨.ldVxK (regOf (fieldX w)), rfl, eI⟩
  · have := famk 15 0x15 _ (by decide) h; rw [this.1, this.2] at eI; exact ⟨.ldDtVx (regOf (fieldX w)), rfl, eI⟩
  · have := famk 15 0x18 _ (by decide) h; rw [this.1, this.2] at eI; exact ⟨.ldStVx (regOf (fieldX w)), rfl, eI⟩
  · have := famk 15 0x1E _ (by decide) h; rw [this.1, this.2] at eI; exact ⟨.addIVx (regOf (fieldX w)), rfl, eI⟩
  · have := famk 15 0x29 _ (by decide) h; rw [this.1, this.2] at eI; exact ⟨.ldFVx (regOf (fieldX w)), rfl, eI⟩
  · have := famk 15 0x33 _ (by decide) h; rw [this.1, this.2] at eI; exact ⟨.ldBVx (regOf (fieldX w)), rfl, eI⟩
  · have := famk 15 0x55 _ (by decide) h; rw [this.1, this.2] at eI; exact ⟨.ldMemVx (regOf (fieldX w)), rfl, eI⟩
  · have := famk 15 0x65 _ (by decide) h; rw [this.1, this.2] at eI; exact ⟨.ldVxMem (regOf (fieldX w)), rfl, eI⟩

end Sys2Proof
end

