-- ==== Sys2Proof/Tests/Slice0.lean ====
section
/-! SUPPORT. The tests of the model and the witnesses of its statements. Expected results are those of
95_test_vectors.md (the vector's name stands at the test) or are computed by hand from the rule named. Every test
runs one step. -/

namespace Sys2Proof.Tests

open Sys2Proof.Machine

/-! ### Small states -/

/-- The state after reset with some general registers set, lowest register first in the list. -/
def withRegs (l : List (RegIdx × Byte)) : State := l.foldl (fun s p => s.setV p.1 p.2) State.reset

/-- The same with some bytes of memory stored from an address. -/
def withBytes (s : State) (a : Nat) (bytes : List Byte) : State := { s with mem := writeBytes s.mem a bytes }

/-- Only these keys are down. -/
def keysDown (l : List Nat) : Vector Bool 16 := Vector.ofFn (fun k => l.contains k.val)

/-- What a field of the next state is, where there is a next state. -/
def field {α : Type} (r : Result) (f : State → α) : Option α :=
  match r with
  | .next t => some (f t)
  | .fault _ => none
  | .refused _ => none

/-- A field after one step of `s` on the word `w`. -/
def after {α : Type} (s : State) (w : Nat) (f : State → α) : Option α := field (step (s.withFetchWord 16 w)) f

/-- A configuration with shift-left at 0xE and its flag the high bit. -/
def otherShl : Config := { Config.default with shlSubop := 0xE, shlFlagBit := .high }

/-- A configuration in which shift-left would share the word of `SHR`. -/
def badSubop : Config := { Config.default with shlSubop := 0x6 }

/-- A configuration in which two fault causes have one number. -/
def badCodes : Config := { Config.default with faultCodes := { Config.defaultFaultCodes with stackOverflow := 5 } }

/-- The number of lit pixels of a row. -/
def litInRow (s : State) (r : Nat) : Nat := ((List.range 64).filter (fun c => s.pixel r c)).length

/-! ### Well-formedness: an ill-formed term for each check -/

theorem test_default_config_is_wf : Config.wf Config.default = true := by decide
theorem test_other_shl_is_wf : Config.wf otherShl = true := by decide
theorem test_shared_subop_is_refused : Config.shlSubopFree badSubop = false ∧ Config.wf badSubop = false := by
  decide
theorem test_shl_is_ill_formed_there : Instr.wf badSubop (.shlVx 1) = false ∧ Instr.wf badSubop .cls = true := by
  decide
theorem test_shared_fault_number_is_refused : FaultCodes.distinct badCodes.faultCodes = false ∧
    Config.wf badCodes = false := by decide
theorem test_long_program_is_refused : romFits (List.replicate 3584 0) = true ∧
    romFits (List.replicate 3585 0) = false := by
  simp only [romFits, List.length_replicate]; decide
theorem test_memory_wf_refuses_disorder : Memory.wf [(0x301, 1), (0x300, 1)] = false ∧
    Memory.wf [(0x300, 1), (0x300, 2)] = false := by decide
theorem test_memory_wf_refuses_idle_cells : Memory.wf [(0x300, 0)] = false ∧ Memory.wf [(0, 0xF0)] = false ∧
    Memory.wf [(0x1000, 1)] = false ∧ Memory.wf [(0, 0), (0xFFF, 1)] = true := by decide

/-! ### Decoding: words written out from 30_encoding.md R75 to R79, one for every constructor -/

theorem test_decode_control : decodeTableWord 16 0x00E0 = some .cls ∧ decodeTableWord 16 0x00EE = some .ret ∧
    decodeTableWord 16 0x1ABC = some (.jp 0xABC) ∧ decodeTableWord 16 0x2FFE = some (.call 0xFFE) ∧
    decodeTableWord 16 0xB300 = some (.jpV0Nnn 0x300) := by decide
theorem test_decode_skips : decodeTableWord 16 0x332A = some (.seVxKk 3 0x2A) ∧
    decodeTableWord 16 0x432B = some (.sneVxKk 3 0x2B) ∧ decodeTableWord 16 0x5120 = some (.seVxVy 1 2) ∧
    decodeTableWord 16 0x512F = some (.seVxVy 1 2) ∧ decodeTableWord 16 0x9AB7 = some (.sneVxVy 10 11) := by
  decide
theorem test_decode_immediates : decodeTableWord 16 0x6FAB = some (.ldVxKk 15 0xAB) ∧
    decodeTableWord 16 0x72F5 = some (.addVxKk 2 0xF5) ∧ decodeTableWord 16 0xAFFF = some (.ldINnn 0xFFF) ∧
    decodeTableWord 16 0xC30F = some (.rndVxKk 3 0x0F) := by decide
theorem test_decode_family8_low : decodeTableWord 16 0x8120 = some (.ldVxVy 1 2) ∧
    decodeTableWord 16 0x8121 = some (.orVxVy 1 2) ∧ decodeTableWord 16 0x8122 = some (.andVxVy 1 2) ∧
    decodeTableWord 16 0x8123 = some (.xorVxVy 1 2) ∧ decodeTableWord 16 0x8AB4 = some (.addVxVy 10 11) := by
  decide
theorem test_decode_family8_high : decodeTableWord 16 0x8125 = some (.subVxVy 1 2) ∧
    decodeTableWord 16 0x8126 = some (.shrVx 1) ∧ decodeTableWord 16 0x8127 = some (.subnVxVy 1 2) ∧
    decodeTableWord 16 0x8128 = some (.shlVx 1) ∧ decodeTableWord 16 0x812E = none := by decide
theorem test_decode_other_shl : decodeWord otherShl 0x812E = .ok (.shlVx 1) ∧
    decodeWord otherShl 0x8128 = .error .family8 := by decide
theorem test_decode_display : decodeTableWord 16 0xD125 = some (.drwVxVyN 1 2 5) := by decide
theorem test_decode_keys : decodeTableWord 16 0xE19E = some (.skpVx 1) ∧
    decodeTableWord 16 0xE1A1 = some (.sknpVx 1) ∧ decodeTableWord 16 0xFF0A = some (.ldVxK 15) := by decide
theorem test_decode_timers : decodeTableWord 16 0xF407 = some (.ldVxDt 4) ∧
    decodeTableWord 16 0xF015 = some (.ldDtVx 0) ∧ decodeTableWord 16 0xF018 = some (.ldStVx 0) := by decide
theorem test_decode_index : decodeTableWord 16 0xF11E = some (.addIVx 1) ∧
    decodeTableWord 16 0xF129 = some (.ldFVx 1) ∧ decodeTableWord 16 0xF033 = some (.ldBVx 0) ∧
    decodeTableWord 16 0xF155 = some (.ldMemVx 1) ∧ decodeTableWord 16 0xFF65 = some (.ldVxMem 15) := by decide
theorem test_decode_refuses_family0 : decodeWord Config.default 0x0000 = .error .family0 ∧
    decodeWord Config.default 0x00E1 = .error .family0 ∧ decodeWord Config.default 0x01E0 = .error .family0 ∧
    decodeWord Config.default 0x0FFF = .error .family0 := by decide
theorem test_decode_refuses_others : decodeWord Config.default 0x8129 = .error .family8 ∧
    decodeWord Config.default 0x812F = .error .family8 ∧ decodeWord Config.default 0xE19F = .error .familyE ∧
    decodeWord Config.default 0xF100 = .error .familyF ∧ decodeWord Config.default 0xF156 = .error .familyF := by
  decide
/-- R71's worked field extraction, and the two bytes of R54. -/
theorem test_fields : fieldOp 0x8AB4 = 0x8 ∧ fieldX 0x8AB4 = 0xA ∧ fieldY 0x8AB4 = 0xB ∧ fieldN 0x8AB4 = 0x4 ∧
    fieldKk 0x8AB4 = 0xB4 ∧ fieldNnn 0x8AB4 = 0xAB4 ∧
    encode Config.default (.addVxVy 10 11) = [0x8A, 0xB4] := by decide
/-- A word placed by the host's hook is what the next step runs, from reset and from a `pc` that cannot fetch. -/
theorem test_placed_word_runs : fetch (State.reset.withFetchWord 16 0x6210) = some 0x6210 ∧
    fetch (({ State.reset with pc := 0xFFF } : State).withFetchWord 16 0x6210) = some 0x6210 := by decide

/-! ### Display -/

/-- V1. -/
theorem test_cls : after { withRegs [(15, 9)] with fb := setPixel blankScreen 3 7 true } 0x00E0
    (fun t => (t.pixel 3 7, t.getV 15, t.pc)) = some (false, 9, 0x202) := by decide
/-- V2: clipping at the right edge. -/
theorem test_drw_clips : after (withBytes { withRegs [(0, 62)] with i := 0x300 } 0x300 [0xF0]) 0xD011
    (fun t => (t.pixel 0 62, t.pixel 0 63, t.pixel 0 0, t.getV 15)) = some (true, true, false, 0) := by decide
/-- V9: a collision, and the pixel it clears. -/
theorem test_drw_collides :
    after (withBytes { State.reset with i := 0x300, fb := setPixel blankScreen 0 0 true } 0x300 [0xC0]) 0xD011
      (fun t => (t.pixel 0 0, t.pixel 0 1, t.getV 15)) = some (false, true, 1) := by decide

/-! ### Flow -/

/-- W1: the entry is not erased. -/
theorem test_ret : after { State.reset with sp := 1, stack := State.reset.stack.set 0 0x0206 } 0x00EE
    (fun t => (t.pc, t.sp, t.stack[0])) = some (0x206, 0, 0x0206) := by decide
/-- W2. -/
theorem test_ret_underflow : after State.reset 0x00EE (fun t => (t.status, t.pc, t.sp)) =
    some (.fault (.stackUnderflow 0x200), 0x200, 0) := by decide
/-- S2. -/
theorem test_jp : after State.reset 0x1300 (fun t => t.pc) = some 0x300 := by decide
/-- W7. -/
theorem test_call : after { State.reset with pc := 0x204, sp := 15 } 0x2300
    (fun t => (t.stack[15], t.sp, t.pc)) = some (0x206, 16, 0x300) := by decide
/-- W8. -/
theorem test_call_overflow : after { State.reset with pc := 0x204, sp := 16 } 0x2300
    (fun t => (t.status, t.sp, t.pc)) = some (.fault (.stackOverflow 0x204), 16, 0x204) := by decide
/-- W10, W11. -/
theorem test_se_kk : after (withRegs [(3, 0x2A)]) 0x332A (fun t => t.pc) = some 0x204 ∧
    after (withRegs [(3, 0x2A)]) 0x332B (fun t => t.pc) = some 0x202 := by decide
/-- W12. -/
theorem test_sne_kk : after (withRegs [(3, 0x2A)]) 0x432A (fun t => t.pc) = some 0x202 ∧
    after (withRegs [(3, 0x2A)]) 0x432B (fun t => t.pc) = some 0x204 := by decide
/-- W13. -/
theorem test_se_vy : after (withRegs [(1, 7), (2, 7)]) 0x5120 (fun t => t.pc) = some 0x204 ∧
    after (withRegs [(1, 7), (2, 8)]) 0x5120 (fun t => t.pc) = some 0x202 := by decide
/-- W15. -/
theorem test_sne_vy : after (withRegs [(1, 7), (2, 8)]) 0x9120 (fun t => t.pc) = some 0x204 ∧
    after (withRegs [(1, 7), (2, 7)]) 0x9120 (fun t => t.pc) = some 0x202 := by decide
/-- W18: the sum is neither wrapped nor masked. -/
theorem test_jp_v0 : after (withRegs [(0, 0xFF)]) 0xBFFF (fun t => t.pc) = some 0x10FE := by decide
/-- W20, W21: the last word, and the fetch past it. -/
theorem test_last_word : after { State.reset with pc := 0xFFE } 0x6000 (fun t => t.pc) = some 0x1000 ∧
    field (step { State.reset with pc := 0xFFF }) (fun t => (t.status, t.pc)) =
      some (.fault (.fetchOutOfBounds 0xFFF), 0xFFF) := by decide
/-- L2: after reset, with nothing loaded. -/
theorem test_empty_memory : field (step State.reset) (fun t => (t.status, t.pc)) =
    some (.fault (.decodeFailure 0x200 0x0000), 0x200) := by decide

/-! ### Register arithmetic and logic -/

/-- A2. -/
theorem test_ld_kk : after (withRegs [(15, 1)]) 0x6FAB (fun t => t.getV 15) = some 0xAB := by decide
/-- A3. -/
theorem test_add_kk_wraps : after (withRegs [(2, 0x10), (15, 0)]) 0x72F5 (fun t => (t.getV 2, t.getV 15)) =
    some (0x05, 0) := by decide
/-- A5. -/
theorem test_ld_vy : after (withRegs [(1, 0x3C)]) 0x8010 (fun t => (t.getV 0, t.getV 1)) = some (0x3C, 0x3C) := by
  decide
/-- A6. -/
theorem test_or : after (withRegs [(0, 0xF0), (1, 0x3C), (15, 5)]) 0x8011 (fun t => (t.getV 0, t.getV 15)) =
    some (0xFC, 5) := by decide
/-- A6. -/
theorem test_and : after (withRegs [(0, 0xF0), (1, 0x3C), (15, 5)]) 0x8012 (fun t => (t.getV 0, t.getV 15)) =
    some (0x30, 5) := by decide
/-- A6. -/
theorem test_xor : after (withRegs [(0, 0xF0), (1, 0x3C), (15, 5)]) 0x8013 (fun t => (t.getV 0, t.getV 15)) =
    some (0xCC, 5) := by decide
/-- A8, A9: the sum 256 carries, the sum 255 does not. -/
theorem test_add_carry : after (withRegs [(0, 0xFF), (1, 1)]) 0x8014 (fun t => (t.getV 0, t.getV 15)) =
    some (0, 1) ∧ after (withRegs [(0, 0x80), (1, 0x7F), (15, 1)]) 0x8014
      (fun t => (t.getV 0, t.getV 15)) = some (0xFF, 0) := by decide
/-- A11, A13: the flag register as destination and as source. -/
theorem test_add_flag_register : after (withRegs [(15, 2), (1, 3)]) 0x8F14 (fun t => t.getV 15) = some 0 ∧
    after (withRegs [(0, 0x10), (15, 0xF5)]) 0x80F4 (fun t => (t.getV 0, t.getV 15)) = some (5, 1) := by decide
/-- A14, A15. -/
theorem test_sub : after (withRegs [(0, 5), (1, 3)]) 0x8015 (fun t => (t.getV 0, t.getV 15)) = some (2, 1) ∧
    after (withRegs [(0, 3), (1, 5)]) 0x8015 (fun t => (t.getV 0, t.getV 15)) = some (0xFE, 0) := by decide
/-- A16, A18: strict comparison, and the flag kept in `VF`. -/
theorem test_sub_equal : after (withRegs [(0, 5), (1, 5), (15, 1)]) 0x8015 (fun t => (t.getV 0, t.getV 15)) =
    some (0, 0) ∧ after (withRegs [(15, 9), (1, 3)]) 0x8F15 (fun t => t.getV 15) = some 1 := by decide
/-- A21: `y` is not examined. -/
theorem test_shr : after (withRegs [(0, 5), (1, 0xFF)]) 0x8016 (fun t => (t.getV 0, t.getV 1, t.getV 15)) =
    some (2, 0xFF, 1) := by decide
/-- A23, A24. -/
theorem test_subn : after (withRegs [(0, 3), (1, 5)]) 0x8017 (fun t => (t.getV 0, t.getV 15)) = some (2, 1) ∧
    after (withRegs [(0, 5), (1, 3)]) 0x8017 (fun t => (t.getV 0, t.getV 15)) = some (0xFE, 0) := by decide
/-- A27, A28: the flag is the low bit. -/
theorem test_shl : after (withRegs [(0, 0x80), (15, 1)]) 0x8008 (fun t => (t.getV 0, t.getV 15)) = some (0, 0) ∧
    after (withRegs [(0, 1)]) 0x8008 (fun t => (t.getV 0, t.getV 15)) = some (2, 1) := by decide
/-- A27, A28 with `SHL_FLAG_BIT = 7`. -/
theorem test_shl_high_flag :
    field (execIn otherShl 0 (.shlVx 0) (withRegs [(0, 0x80)])) (fun t => (t.getV 0, t.getV 15)) = some (0, 1) ∧
    field (execIn otherShl 0 (.shlVx 0) (withRegs [(0, 1)])) (fun t => (t.getV 0, t.getV 15)) = some (2, 0) := by
  decide
/-- A29, A30: the random byte is the argument of the cycle. -/
theorem test_rnd :
    field (cycle Config.default 0xA7 (State.reset.withFetchWord 16 0xC30F)) (fun t => t.getV 3) = some 0x07 ∧
    field (cycle Config.default 0xA7 (State.reset.withFetchWord 16 0xC3FF)) (fun t => t.getV 3) = some 0xA7 := by
  decide
/-- A30: whatever the free byte, the mask 0 leaves 0, and the step counts one draw. -/
theorem test_rnd_mask_zero (s : State) : exec (.rndVxKk 3 0) s = .next ((s.setV 3 0).countDraw.advance) := by
  simp [exec, execRndVxKk, randomAndMask]

/-! ### Address register and memory -/

/-- M1. -/
theorem test_ld_i : after State.reset 0xAFFF (fun t => t.i) = some 0x0FFF := by decide
/-- M3, M4. -/
theorem test_add_i : after { withRegs [(1, 1), (15, 0)] with i := 0x0FFF } 0xF11E (fun t => (t.i, t.getV 15)) =
    some (0x1000, 0) ∧ after { withRegs [(1, 1)] with i := 0xFFFF } 0xF11E (fun t => t.i) = some 0 := by decide
/-- M5, M6: the whole register is used. -/
theorem test_ld_f : after (withRegs [(0, 0x0A)]) 0xF029 (fun t => t.i) = some 0x0032 ∧
    after (withRegs [(0, 0xFF)]) 0xF029 (fun t => t.i) = some 0x04FB := by decide
/-- M7, M9. -/
theorem test_bcd : after { withRegs [(0, 234)] with i := 0xFFD } 0xF033
    (fun t => (readByte t.mem 0xFFD, readByte t.mem 0xFFE, readByte t.mem 0xFFF)) = some (2, 3, 4) := by decide
/-- M10. -/
theorem test_bcd_fault : after { withRegs [(0, 234)] with i := 0xFFE } 0xF033
    (fun t => (t.status, readByte t.mem 0xFFE)) =
      some (.fault (.memoryOutOfBounds 0x200 0xFFE 3), 0) := by decide
/-- M11: inclusive of `x`, and `I` is not changed. -/
theorem test_store_regs : after { withRegs [(0, 0x11), (1, 0x22), (2, 0x33)] with i := 0x400 } 0xF155
    (fun t => (readByte t.mem 0x400, readByte t.mem 0x401, readByte t.mem 0x402, t.i)) =
      some (0x11, 0x22, 0, 0x400) := by decide
/-- M13. -/
theorem test_store_regs_fault : after { withRegs [(0, 0x77)] with i := 0xFFF } 0xF155
    (fun t => (t.status, readByte t.mem 0xFFF)) =
      some (.fault (.memoryOutOfBounds 0x200 0xFFF 2), 0) := by decide
/-- M15. -/
theorem test_load_regs : after (withBytes { withRegs [(2, 9)] with i := 0x400 } 0x400 [0x11, 0x22]) 0xF165
    (fun t => (t.getV 0, t.getV 1, t.getV 2, t.i)) = some (0x11, 0x22, 9, 0x400) := by decide
/-- M16: the first three glyphs and one row of the fourth. -/
theorem test_load_font : after State.reset 0xFF65 (fun t => t.v.toList) =
    some [0xF0, 0x90, 0x90, 0x90, 0xF0, 0x20, 0x60, 0x20, 0x20, 0x70, 0xF0, 0x10, 0xF0, 0x80, 0xF0, 0xF0] := by
  decide

/-! ### Keypad and timers -/

/-- Y1. -/
theorem test_skp : after { withRegs [(2, 0x0A)] with keys := keysDown [10] } 0xE29E (fun t => t.pc) =
    some 0x204 ∧ after (withRegs [(2, 0x0A)]) 0xE29E (fun t => t.pc) = some 0x202 := by decide
/-- Y3. -/
theorem test_skp_fault : after (withRegs [(2, 0x10)]) 0xE29E (fun t => t.status) =
    some (.fault (.keyIndexOutOfRange 0x200 0x10)) := by decide
/-- Y2. -/
theorem test_sknp : after { withRegs [(2, 0x0A)] with keys := keysDown [10] } 0xE2A1 (fun t => t.pc) =
    some 0x202 ∧ after (withRegs [(2, 0x0A)]) 0xE2A1 (fun t => t.pc) = some 0x204 := by decide
/-- Y7. -/
theorem test_ld_dt : after { State.reset with dt := 0x2A } 0xF407 (fun t => (t.getV 4, t.dt)) =
    some (0x2A, 0x2A) := by decide
/-- Y4, Y5: the wait, and the lowest key. -/
theorem test_ld_k : after (withRegs [(3, 7)]) 0xF30A (fun t => (t.pc, t.getV 3)) = some (0x200, 7) ∧
    after { State.reset with keys := keysDown [5, 9] } 0xF30A (fun t => (t.pc, t.getV 3)) =
      some (0x202, 5) := by decide
/-- Y8. -/
theorem test_set_dt : after (withRegs [(0, 0x3C)]) 0xF015 (fun t => (t.dt, t.st)) = some (0x3C, 0) := by decide
/-- Y8. -/
theorem test_set_st : after (withRegs [(0, 0x3C)]) 0xF018 (fun t => (t.dt, t.st, t.soundOn)) =
    some (0, 0x3C, true) := by decide

/-! ### Events -/

/-- Y9, Y12. -/
theorem test_tick : (tick { State.reset with dt := 1, st := 0 }).dt = 0 ∧
    (tick { State.reset with dt := 1, st := 0 }).st = 0 ∧
    (tick { State.reset with dt := 9, status := .fault (.stackUnderflow 0x200) }).dt = 9 := by decide
/-- L1. -/
theorem test_reset_memory : readByte State.reset.mem 0 = 0xF0 ∧ readByte State.reset.mem 0x4F = 0x80 ∧
    readByte State.reset.mem 0x50 = 0 ∧ readByte State.reset.mem 0x200 = 0 := by decide
/-- L5. -/
theorem test_load : (readByte (load [0x12, 0x00] State.reset).mem 0x200,
    readByte (load [0x12, 0x00] State.reset).mem 0x201) = (0x12, 0x00) ∧
    (load [0x12, 0x00] State.reset).pc = 0x200 := by decide
/-- L4. -/
theorem test_load_too_large : loadResult (List.replicate 3585 0) State.reset = .romTooLarge := by
  simp only [loadResult, State.reset, romFits, List.length_replicate]; decide
/-- The status output of R5: the number under `FAULT_CODES`. -/
theorem test_status_output : (State.reset.statusOutput Config.default = none) ∧
    ({ State.reset with status := .fault (.stackOverflow 0x204) } : State).statusOutput Config.default =
      some (4, .stackOverflow 0x204) := by decide

/-! ### Witnesses: for every statement with hypotheses, states and operands that meet them

Where a statement has several clauses, a witness stands for each, at the values where the clauses meet. -/

/-- A state of a core that a return faulted. -/
def faulted : State := { State.reset with status := .fault (.stackUnderflow 0x200) }

/-- The machine with a program loaded, ready to run it. -/
def loaded (bytes : List Byte) : State := load bytes State.reset

/-- A sprite of one row at 0x300, `I` on it, a lit pixel under it. -/
def spriteState : State :=
  withBytes { State.reset with i := 0x300, fb := setPixel blankScreen 0 0 true } 0x300 [0xC0]

theorem witness_DecodeInvertsEncode : Instr.wf Config.default (.shlVx 15) = true ∧
    Instr.wf otherShl (.shlVx 15) = true ∧ Instr.wf badSubop (.shrVx 15) = true := by decide
theorem witness_EncodeInvertsDecode : Config.shlSubopFree Config.default = true ∧
    decodeWord Config.default 0x512F = .ok (.seVxVy 1 2) ∧ Config.shlSubopFree otherShl = true ∧
    decodeWord otherShl 0x812E = .ok (.shlVx 1) := by decide
theorem witness_DecoderIsTheOpcodeMap : Config.shlSubopFree Config.default = true ∧
    decodeWord Config.default 0x8126 = .ok (.shrVx 1) ∧
    (∃ r ∈ opcodeRows Config.default, r.holds 0x8126 = true) := by decide
theorem witness_IllegalWordsAreExactlyFourClasses : State.reset.status = .run ∧
    fetch State.reset = some 0x0000 ∧ decodeWord Config.default 0x0000 = .error .family0 := by decide
theorem witness_UnexaminedNibblesDoNotMatter : Config.shlSubopFree Config.default = true ∧
    fieldOp 0xE000 = 0xE ∧ fieldOp 0xF000 = 0xF := by decide
theorem witness_ShiftLeftSubopIsTheParameter : Config.default.shlSubop = 0x8 ∧ otherShl.shlSubop = 0xE := by
  decide
theorem witness_FetchIsBigEndian : ({ State.reset with pc := 0xFFE } : State).pc.toNat ≤ 0xFFE ∧
    fetch { State.reset with pc := 0xFFE } = some 0 ∧ fetch { State.reset with pc := 0xFFF } = none := by decide
theorem witness_StepRunsTheDecodedInstruction : (loaded [0x62, 0x10]).status = .run ∧
    (loaded [0x62, 0x10]).pc.toNat ≤ 0xFFE ∧ decodeWord Config.default
      (wordOfBytes (readByte (loaded [0x62, 0x10]).mem 0x200) (readByte (loaded [0x62, 0x10]).mem 0x201)) =
        .ok (.ldVxKk 2 0x10) := by decide

/-- The largest `pc` a step can leave (W18). -/
theorem witness_NextPcIsTheTable : nextInstr Config.default ((withRegs [(0, 0xFF)]).withFetchWord 16 0xBFFF) =
    some (.jpV0Nnn 0xFFF) ∧ ∃ t, cycle Config.default 0 ((withRegs [(0, 0xFF)]).withFetchWord 16 0xBFFF) =
      .next t ∧ t.status = .run ∧ t.pc.toNat = 0x10FE := ⟨by decide, _, rfl, by decide, by decide⟩

/-! #### Faults: one witness for each row of the table -/

theorem witness_FaultsAreExactlyTheTable_fetch : Config.shlSubopFree Config.default = true ∧ State.reset.status = .run ∧
    (∃ t, cycle Config.default 0 { State.reset with pc := 0xFFF } = .next t ∧
      t.status = .fault (.fetchOutOfBounds 0xFFF)) ∧
    ∃ t, cycle Config.default 0 ({ State.reset with pc := 0xFFE }.withFetchWord 16 0x6000) = .next t ∧
      t.status = .run := ⟨by decide, rfl, ⟨_, rfl, rfl⟩, ⟨_, rfl, by decide⟩⟩
theorem witness_FaultsAreExactlyTheTable_decode : ∃ t, cycle Config.default 0 (State.reset.withFetchWord 16 0x8129) = .next t ∧
    t.status = .fault (.decodeFailure 0x200 0x8129) := ⟨_, rfl, by decide⟩
theorem witness_FaultsAreExactlyTheTable_memory :
    (∃ t, cycle Config.default 0 ({ State.reset with i := 0xFFE }.withFetchWord 16 0xF033) = .next t ∧
      t.status = .fault (.memoryOutOfBounds 0x200 0xFFE 3)) ∧
    ∃ t, cycle Config.default 0 ({ State.reset with i := 0xFFD }.withFetchWord 16 0xF033) = .next t ∧
      t.status = .run := ⟨⟨_, rfl, by decide⟩, ⟨_, rfl, by decide⟩⟩
theorem witness_FaultsAreExactlyTheTable_stack :
    (∃ t, cycle Config.default 0 ({ State.reset with sp := 16 }.withFetchWord 16 0x2300) = .next t ∧
      t.status = .fault (.stackOverflow 0x200)) ∧
    ∃ t, cycle Config.default 0 (State.reset.withFetchWord 16 0x00EE) = .next t ∧
      t.status = .fault (.stackUnderflow 0x200) := ⟨⟨_, rfl, by decide⟩, ⟨_, rfl, by decide⟩⟩
theorem witness_FaultsAreExactlyTheTable_key :
    (∃ t, cycle Config.default 0 ((withRegs [(2, 16)]).withFetchWord 16 0xE29E) = .next t ∧
      t.status = .fault (.keyIndexOutOfRange 0x200 16)) ∧
    ∃ t, cycle Config.default 0 ((withRegs [(2, 15)]).withFetchWord 16 0xE29E) = .next t ∧
      t.status = .run := ⟨⟨_, rfl, by decide⟩, ⟨_, rfl, by decide⟩⟩
theorem witness_FaultPriorityIsFetchDecodeExecute :
    ({ State.reset with pc := 0xFFF } : State).pc.toNat ≥ 0xFFF ∧ fetch State.reset = some 0 ∧
    decodeWord Config.default 0 = .error .family0 ∧
    (∃ t, execIn Config.default 0 (.call 0x300) { State.reset with sp := 16 } = .next t ∧
      t.status = .fault (.stackOverflow 0x200)) ∧
    ∃ t, execIn Config.default 0 (.call 0x300) { State.reset with sp := 16, pc := 0x204 } = .next t ∧
      t.status = .fault (.stackOverflow 0x204) :=
  ⟨by decide, by decide, by decide, ⟨_, rfl, rfl⟩, ⟨_, rfl, rfl⟩⟩
theorem witness_FaultsArePreciseAndQuiescent : State.reset.status = .run ∧
    (∃ t, cycle Config.default 0 State.reset = .next t ∧ t.status ≠ .run) ∧
    faulted.status = .fault (.stackUnderflow 0x200) := ⟨rfl, ⟨_, rfl, by decide⟩, rfl⟩
theorem witness_OnlyResetEndsAFault : faulted.status = .fault (.stackUnderflow 0x200) ∧
    (∃ t, apply Config.default .reset faulted = .next t) ∧ ∃ t, apply Config.default .tick faulted = .next t ∧
      Event.tick ≠ .reset := ⟨rfl, ⟨_, rfl⟩, ⟨_, rfl, by decide⟩⟩

/-! #### Invariants -/

theorem witness_EveryEventKeepsMemoryCanonical : memoryCanonical (loaded [0x60, 0x01]) ∧
    (∃ t, apply Config.default (.load [0, 0x12]) (loaded [0x60, 0x01]) = .next t ∧ t.mem = [(0x201, 0x12)]) ∧
    ∃ t, step (loaded [0x60, 0x01]) = .next t :=
  ⟨by unfold memoryCanonical; decide, ⟨_, rfl, by decide⟩, ⟨_, rfl⟩⟩
theorem witness_EveryEventKeepsAddressesBounded : addressesBounded { State.reset with pc := 0xFFE } ∧
    ∃ t, apply Config.default (.step 0) ({ State.reset with pc := 0xFFE }.withFetchWord 16 0x2FFE) = .next t ∧
      t.stack[0] = 0x1000 := ⟨by unfold addressesBounded; decide, _, rfl, by decide⟩
theorem witness_ReachableStatesAreCanonical : ∃ s t, Reachable Config.default s ∧ Reachable Config.default t ∧
    t.keys ≠ s.keys ∧ ∀ a, readByte t.mem a = readByte s.mem a :=
  ⟨resetWith Config.default, setKeys (keysDown [5]) (resetWith Config.default), .start,
    .event (.setKeys (keysDown [5])) .start rfl, by decide, fun _ => rfl⟩

/-! #### What a step may write -/

theorem witness_StepWritesOnlyItsRegisters :
    nextInstr Config.default (spriteState.withFetchWord 16 0xD015) = some (.drwVxVyN 0 1 5) ∧
    writesFlag (.drwVxVyN 0 1 5) = true ∧ ∃ t, cycle Config.default 0 (spriteState.withFetchWord 16 0xD015) =
      .next t ∧ t.status = .run ∧ t.getV flagReg = 1 := ⟨by decide, rfl, _, rfl, by decide, by decide⟩
theorem witness_OnlyDisplayInstructionsChangePixels : ∃ t,
    apply Config.default (.step 0) (spriteState.withFetchWord 16 0x00E0) = .next t ∧
    Event.step 0 ≠ .reset ∧ ¬keepsScreen (spriteState.withFetchWord 16 0x00E0) t :=
  ⟨_, rfl, by decide, fun h => absurd (h 0 0) (by decide)⟩
theorem witness_OnlyStoresChangeMemory : ∃ t,
    cycle Config.default 0 ({ withRegs [(0, 1)] with i := 0xFFF }.withFetchWord 16 0xF055) = .next t ∧
    readByte t.mem 0xFFF ≠
      readByte ({ withRegs [(0, 1)] with i := 0xFFF }.withFetchWord 16 0xF055 : State).mem 0xFFF :=
  ⟨_, rfl, by decide⟩
theorem witness_OnlyTheirInstructionsChangeIndexAndStack :
    (∃ t, cycle Config.default 0 (State.reset.withFetchWord 16 0xA300) = .next t ∧ t.i ≠ State.reset.i) ∧
    ∃ t, cycle Config.default 0 (State.reset.withFetchWord 16 0x2300) = .next t ∧
      t.stack ≠ State.reset.stack ∧ t.sp ≠ State.reset.sp :=
  ⟨⟨_, rfl, by decide⟩, ⟨_, rfl, by decide, by decide⟩⟩
theorem witness_StepKeepsKeysAndTimers :
    (∃ t, cycle Config.default 0 ((withRegs [(0, 5)]).withFetchWord 16 0xF015) = .next t ∧ t.dt ≠ 0) ∧
    ∃ t, cycle Config.default 0 ((withRegs [(0, 5)]).withFetchWord 16 0xF018) = .next t ∧ t.st ≠ 0 :=
  ⟨⟨_, rfl, by decide⟩, ⟨_, rfl, by decide⟩⟩

/-! #### Display -/

/-- V4, V7, V8: the last start that fits, the first that does not, and no access at all. -/
theorem witness_DrawSpriteFlipsExactlyItsCells : accessOutOfBounds { State.reset with i := 0xFFE } 3 ∧
    ¬accessOutOfBounds { State.reset with i := 0xFFD } 3 ∧
    ¬accessOutOfBounds { State.reset with i := 0xFFFF } 0 := by unfold accessOutOfBounds; decide
theorem witness_DrawingTwiceRestoresTheScreen : ¬accessOutOfBounds spriteState (1 : Nibble).toNat ∧
    ∃ t u, exec (.drwVxVyN 0 1 1) spriteState = .next t ∧ t.i = spriteState.i ∧
      t.getV 0 = spriteState.getV 0 ∧ t.getV 1 = spriteState.getV 1 ∧
      (∀ k < (1 : Nibble).toNat, readByte t.mem (0x300 + k) = readByte spriteState.mem (0x300 + k)) ∧
      exec (.drwVxVyN 0 1 1) t = .next u ∧ t.getV flagReg = 1 ∧ u.getV flagReg = 1 :=
  ⟨by unfold accessOutOfBounds; decide, _, _, rfl, rfl, rfl, rfl, fun _ _ => rfl, rfl, by decide, by decide⟩

/-! #### Control transfer -/

theorem witness_ReturnPopsTheSavedAddress : State.reset.sp = 0 ∧
    ({ State.reset with sp := 1 } : State).sp.val = (0 : Fin 16).val + 1 ∧
    ({ State.reset with sp := 16 } : State).sp.val = (15 : Fin 16).val + 1 := by decide
theorem witness_CallPushesTheReturnAddress : ({ State.reset with sp := 16 } : State).sp = 16 ∧
    ({ State.reset with sp := 15 } : State).sp.val = (15 : Fin 16).val ∧
    State.reset.sp.val = (0 : Fin 16).val := by decide
theorem witness_CallThenReturnComesBack : ({ State.reset with sp := 15 } : State).sp ≠ 16 ∧
    ∃ t, exec (.call 0x300) { State.reset with sp := 15 } = .next t ∧ keepsStack t { t with pc := 0x400, i := 7 } :=
  ⟨by decide, _, rfl, rfl, fun _ => rfl⟩
theorem witness_SkipsOnRegisters : (withRegs [(3, 0x2A)]).getV 3 = 0x2A ∧ (withRegs [(3, 0x2A)]).getV 3 ≠ 0x2B ∧
    (withRegs [(1, 7), (2, 7)]).getV 1 = (withRegs [(1, 7), (2, 7)]).getV 2 ∧
    (withRegs [(1, 7), (2, 8)]).getV 1 ≠ (withRegs [(1, 7), (2, 8)]).getV 2 := by decide

/-! #### Arithmetic -/

theorem witness_AddWithCarry : (14 : RegIdx) ≠ flagReg ∧ (15 : RegIdx) = flagReg := by decide
theorem witness_SubtractWithNotBorrow : (0 : RegIdx) ≠ flagReg := by decide
theorem witness_ShiftsByOne : (0 : RegIdx) ≠ flagReg := by decide
theorem witness_RandomAndMaskForEveryByte : (0x0F : Byte).getLsbD 7 = false ∧ (0x0F : Byte).getLsbD 0 = true := by
  decide

/-! #### Memory -/

theorem witness_DigitSpriteAddress : ((withRegs [(0, 0x0A)]).getV 0).toNat = (10 : Fin 16).val := by decide
theorem witness_StoreBcdWritesThreeDigits : accessOutOfBounds { State.reset with i := 0xFFE } 3 ∧
    ¬accessOutOfBounds { State.reset with i := 0xFFD } 3 := by unfold accessOutOfBounds; decide
/-- M12 to M14. -/
theorem witness_StoreRegistersThroughX :
    accessOutOfBounds { State.reset with i := 0xFF1 } ((15 : RegIdx).val + 1) ∧
    ¬accessOutOfBounds { State.reset with i := 0xFF0 } ((15 : RegIdx).val + 1) ∧
    ¬accessOutOfBounds { State.reset with i := 0xFFF } ((0 : RegIdx).val + 1) := by
  unfold accessOutOfBounds; decide
/-- M17. -/
theorem witness_LoadRegistersThroughX :
    accessOutOfBounds { State.reset with i := 0x1000 } ((0 : RegIdx).val + 1) ∧
    ¬accessOutOfBounds { State.reset with i := 0xFF0 } ((15 : RegIdx).val + 1) ∧
    (3 : RegIdx) ≤ 3 ∧ (3 : RegIdx) < 4 := by unfold accessOutOfBounds; decide
theorem witness_StoreThenLoadGivesTheRegistersBack :
    ¬accessOutOfBounds { withRegs [(0, 7)] with i := 0xFF0 } ((15 : RegIdx).val + 1) ∧
    ∃ t, exec (.ldMemVx 15) { withRegs [(0, 7)] with i := 0xFF0 } = .next t ∧
      (t.setV 0 9).i = 0xFF0 ∧ keepsMem t (t.setV 0 9) :=
  ⟨by unfold accessOutOfBounds; decide, _, rfl, rfl, fun _ => rfl⟩
/-- P6: a store over the very next word. -/
theorem witness_StoreIsSeenByTheNextFetch :
    ¬accessOutOfBounds { withRegs [(0, 0x12), (1, 0x08)] with i := 0x208, pc := 0x206 } ((1 : RegIdx).val + 1) ∧
    ∃ t, exec (.ldMemVx 1) { withRegs [(0, 0x12), (1, 0x08)] with i := 0x208, pc := 0x206 } = .next t ∧
      t.pc.toNat = 0x208 + (0 : RegIdx).val ∧ (1 : RegIdx).val = (0 : RegIdx).val + 1 ∧
      decodeWord Config.default (wordOfBytes 0x12 0x08) = .ok (.jp 0x208) :=
  ⟨by unfold accessOutOfBounds; decide, _, rfl, by decide, rfl, by decide⟩

/-! #### Keypad, timers and the other events -/

theorem witness_SkipsOnKeys : ((withRegs [(2, 16)]).getV 2).toNat > 15 ∧
    ((withRegs [(2, 15)]).getV 2).toNat = (15 : Fin 16).val ∧ (keysDown [15])[(15 : Fin 16).val] = true ∧
    (keysDown [15])[(0 : Fin 16).val] = false := by decide
theorem witness_BlockUntilKeyTakesTheLowest : (∀ k : Fin 16, State.reset.keys[k.val] = false) ∧
    (keysDown [5, 9])[(5 : Fin 16).val] = true ∧ (∀ j : Fin 16, j < 5 → (keysDown [5, 9])[j.val] = false) ∧
    (keysDown [15])[(15 : Fin 16).val] = true ∧ ∀ j : Fin 16, j < 15 → (keysDown [15])[j.val] = false := by
  decide
theorem witness_TickCountsBothTimersDown : ({ State.reset with dt := 1, st := 0 } : State).status = .run ∧
    faulted.status ≠ .run := by decide
theorem witness_SetKeysWritesTheSnapshot : State.reset.status = .run ∧ faulted.status ≠ .run ∧
    ((withRegs [(2, 15)]).getV 2).toNat = (15 : Fin 16).val ∧ (State.reset.getV 0).toNat = (0 : Fin 16).val := by
  decide
theorem witness_LoadWritesTheProgram : State.reset.status = .run ∧
    (List.replicate 3584 (1 : Byte)).length ≤ 3584 ∧ (List.replicate 3585 (1 : Byte)).length > 3584 ∧
    faulted.status ≠ .run := by
  simp only [List.length_replicate]; decide
theorem witness_ResetLeavesTheTable : 0x50 ≤ 0x50 ∧ 0x50 ≤ 0xFFF := by decide
theorem witness_BootFetchesTheProgram : ([] : List Byte).length + 2 ≤ 3584 ∧
    (List.replicate 3582 (0 : Byte)).length + 2 ≤ 3584 := by
  simp only [List.length_replicate]; decide
theorem witness_FinishedProgramsStay : Finished Config.default (loaded [0x12, 0x00]) :=
  ⟨0x200, by decide, by decide⟩
theorem witness_WaitingCoreWaitsAndTicks : Waiting Config.default (loaded [0xF3, 0x0A]) ∧
    ∃ j : Fin 16, (keysDown [5])[j.val] = true := ⟨⟨⟨3, by decide⟩, by decide⟩, 5, by decide⟩

/-! #### What a step does not look at -/

theorem witness_OnlyRandomAndMaskReadsTheRandomByte :
    ∀ x kk, nextInstr Config.default (State.reset.withFetchWord 16 0x6210) ≠ some (.rndVxKk x kk) := by
  have h : nextInstr Config.default (State.reset.withFetchWord 16 0x6210) = some (.ldVxKk 2 0x10) := by decide
  simp [h]
theorem witness_NoInstructionReadsTheSoundTimer :
    ∃ t, cycle Config.default 0 ((withRegs [(0, 5)]).withFetchWord 16 0xF018) = .next t ∧
      t.st ≠ ((withRegs [(0, 5)]).withFetchWord 16 0xF018).st := ⟨_, rfl, by decide⟩
theorem witness_OnlyKeyInstructionsReadTheKeypad :
    (∀ x, nextInstr Config.default (State.reset.withFetchWord 16 0xF107) ≠ some (.skpVx x) ∧
      nextInstr Config.default (State.reset.withFetchWord 16 0xF107) ≠ some (.sknpVx x) ∧
      nextInstr Config.default (State.reset.withFetchWord 16 0xF107) ≠ some (.ldVxK x)) ∧
    ∃ t, cycle Config.default 0 (State.reset.withFetchWord 16 0xF107) = .next t := by
  have h : nextInstr Config.default (State.reset.withFetchWord 16 0xF107) = some (.ldVxDt 1) := by decide
  exact ⟨by simp [h], _, rfl⟩

end Sys2Proof.Tests
end

section
/-! PROOFS. What each instruction with more than one outcome does, one equation each (41_flow.md R102, R104;
40_display.md R91; 43_index_memory.md R135; 44_keypad_timers.md R140, R143). The guards speak of the state before
the instruction, so that a later proof never unfolds the meaning again. -/

namespace Sys2Proof.Machine

/-- Return (R102): the popped address, or the fault where nothing is saved. -/
theorem execRet_eq (s : State) : execRet s =
    if hs : 0 < s.sp.val then
      .next { s with pc := s.stack[s.sp.val - 1], sp := ⟨s.sp.val - 1, by omega⟩ }
    else raise (.stackUnderflow s.pc) s := by
  unfold execRet State.pop
  by_cases hs : 0 < s.sp.val
  · simp only [dif_pos hs]; rfl
  · simp only [dif_neg hs]

/-- Call (R104): the return address on the stack, or the fault where it is full. -/
theorem execCall_eq (nnn : Addr12) (s : State) : execCall nnn s =
    if hs : s.sp.val < 16 then
      .next { s with
        stack := s.stack.set s.sp.val (s.pc + 2), sp := ⟨s.sp.val + 1, by omega⟩, pc := addrOf nnn }
    else raise (.stackOverflow s.pc) s := by
  unfold execCall State.push
  by_cases hs : s.sp.val < 16
  · simp only [dif_pos hs]; rfl
  · simp only [dif_neg hs]

/-- The canvas that draw-sprite ends with: its rows drawn on the buffer of the state, no collision before (R91). -/
def spriteCanvas (x y : RegIdx) (n : Nibble) (s : State) : Canvas :=
  drawRows (s.getV x).toNat (s.getV y).toNat (readBytes s.mem s.i.toNat n.toNat) ⟨s.fb, false⟩

/-- Draw-sprite (R91): the canvas and its collision flag, or the fault where its bytes are out of bounds. -/
theorem execDrwVxVyN_eq (x y : RegIdx) (n : Nibble) (s : State) : execDrwVxVyN x y n s =
    if n.toNat = 0 ∨ s.i.toNat + n.toNat ≤ memSize then
      .next (({ s with fb := (spriteCanvas x y n s).fb }.setVF (spriteCanvas x y n s).collision).advance)
    else raise (.memoryOutOfBounds s.pc s.i n.toNat) s := by
  by_cases hb : n.toNat = 0 ∨ s.i.toNat + n.toNat ≤ memSize
  · simp only [execDrwVxVyN, memRead_eq, if_pos hb, spriteCanvas]
  · simp only [execDrwVxVyN, memRead_eq, if_neg hb]

/-- Load-registers (R135): the bytes from `I` in `V[0]` to `V[x]`, or the fault. -/
theorem execLdVxMem_eq (x : RegIdx) (s : State) : execLdVxMem x s =
    if rangeSize x = 0 ∨ s.i.toNat + rangeSize x ≤ memSize then
      .next { s with v := setRegsFrom s.v 0 (readBytes s.mem s.i.toNat (rangeSize x)) }.advance
    else raise (.memoryOutOfBounds s.pc s.i (rangeSize x)) s := by
  by_cases hb : rangeSize x = 0 ∨ s.i.toNat + rangeSize x ≤ memSize
  · simp only [execLdVxMem, memRead_eq, if_pos hb]
  · simp only [execLdVxMem, memRead_eq, if_neg hb]

/-- A skip on a key (R140, R141): the move of `pc`, or the fault where the register names no key. -/
theorem skipOnKey_eq (x : RegIdx) (wantDown : Bool) (s : State) : skipOnKey x wantDown s =
    if hk : (s.getV x).toNat < 16 then .next (s.skipIf (s.keyDown ⟨(s.getV x).toNat, hk⟩ == wantDown))
    else raise (.keyIndexOutOfRange s.pc (s.getV x)) s := by
  unfold skipOnKey keyOf
  by_cases hk : (s.getV x).toNat < 16
  · simp only [dif_pos hk]
  · simp only [dif_neg hk]

/-- Block-until-key with no key down (R143): nothing, `pc` included. -/
theorem execLdVxK_of_none {x : RegIdx} {s : State} (hk : s.lowestKey = none) : execLdVxK x s = .next s := by
  simp only [execLdVxK, hk]

/-- Block-until-key with a key down (R143): the lowest one in `V[x]`. -/
theorem execLdVxK_of_some {x : RegIdx} {s : State} {j : Nat} (hk : s.lowestKey = some j) :
    execLdVxK x s = .next (s.setV x (BitVec.ofNat 8 j)).advance := by
  simp only [execLdVxK, hk]

end Sys2Proof.Machine
end

section
/-! PROOFS. What one instruction can write, field by field (10_state.md R21 to R30, 41_flow.md R101), said once for
all 34; and what a cycle and an event can write, from it. -/

namespace Sys2Proof.Machine

/-- What an instruction may have written, field by field, whether or not it raised a fault: which instruction
changes a field, and to what where an invariant needs the value. A field whose proof is not given is one that the
update leaves alone. -/
structure InstrFrame (i : Instr) (s t : State) : Prop where
  regs : keepsRegsBut (writesRegs i) s t := by exact fun _ _ => rfl
  index : t.i ≠ s.i → (∃ nnn, i = .ldINnn nnn) ∨ (∃ x, i = .addIVx x) ∨ ∃ x, i = .ldFVx x := by simp
  stack : t.stack ≠ s.stack →
    ∃ nnn, i = .call nnn ∧ ∃ k : Fin 16, t.stack = s.stack.set k.val (s.pc + 2) := by simp
  cursor : t.sp ≠ s.sp → (∃ nnn, i = .call nnn) ∨ i = .ret := by simp
  delay : t.dt ≠ s.dt → ∃ x, i = .ldDtVx x ∧ t.dt = s.getV x := by simp
  sound : t.st ≠ s.st → ∃ x, i = .ldStVx x ∧ t.st = s.getV x := by simp
  screen : t.fb ≠ s.fb → i = .cls ∨ ∃ x y n, i = .drwVxVyN x y n := by simp
  keys : t.keys = s.keys := by rfl
  pc : t.pc = s.pc ∨ t.pc = s.pc + 2 ∨ t.pc = s.pc + 4 ∨ t.pc.toNat ≤ 0x10FE ∨
    ∃ k : Fin 16, t.pc = s.stack[k.val] := by simp

variable {c : Config} {rnd : Byte} {i : Instr} {s t : State}

/-! ### The shared forms of the instructions -/

/-- Latching a fault writes none of the fields. -/
theorem InstrFrame.raised {f : FaultReport} (h : raise f s = .next t) : InstrFrame i s t := by
  cases h; exact {}

/-- Only registers of the instruction's own written, before the advance. -/
theorem InstrFrame.wroteRegs {v : Vector Byte 16} {d : Nat}
    (hv : keepsRegsBut (writesRegs i) s { s with v := v }) :
    InstrFrame i s ({ s with v := v, draws := d } : State).advance := { regs := hv }

/-- One register written that is the instruction's own. -/
theorem InstrFrame.setV {x : RegIdx} (b : Byte) (hx : x ∈ writesRegs i) :
    InstrFrame i s (s.setV x b).advance :=
  .wroteRegs fun _ hr => State.getV_setV_ne s b (ne_of_mem_of_not_mem hx hr).symm

/-- A result and a flag written to registers of the instruction's own. -/
theorem InstrFrame.setFlagged {x : RegIdx} (b : Byte) (f : Bool) (hx : x ∈ writesRegs i)
    (hf : flagReg ∈ writesRegs i) : InstrFrame i s (s.setFlagged x b f).advance :=
  .wroteRegs fun r hr => by
    have hrf := (ne_of_mem_of_not_mem hf hr).symm
    have hrx := (ne_of_mem_of_not_mem hx hr).symm
    exact (State.getV_setFlagged s x r b f).trans (by rw [if_neg hrf, if_neg hrx])

/-- A skip writes `pc` alone. -/
theorem InstrFrame.skipIf (taken : Bool) : InstrFrame i s (s.skipIf taken) where
  pc := by cases taken <;> simp

/-- A jump writes `pc` alone. -/
theorem InstrFrame.setPc {w : Word} (hw : w.toNat ≤ 0x10FE) : InstrFrame i s (s.setPc w) where
  pc := by simp [hw]

/-- Writing the address register, for the three instructions that do. -/
theorem InstrFrame.setI (w : Word)
    (hi : (∃ nnn, i = .ldINnn nnn) ∨ (∃ x, i = .addIVx x) ∨ ∃ x, i = .ldFVx x) :
    InstrFrame i s (s.setI w).advance where
  index := fun _ => hi

theorem toNat_addrOf_le (nnn : Addr12) : (addrOf nnn).toNat ≤ 0xFFF := by
  rw [toNat_addrOf]; omega

/-- "The largest value any rule can write to `pc` is 0x10FE" (R101): the sum of jump-with-offset. -/
theorem toNat_offset_le (nnn : Addr12) (b : Byte) : (addrOf nnn + wordOf b).toNat ≤ 0x10FE := by
  rw [BitVec.toNat_add, toNat_addrOf, toNat_wordOf]; omega

/-! ### The instructions with more than one outcome -/

theorem InstrFrame.ret (h : execRet s = .next t) : InstrFrame .ret s t := by
  rw [execRet_eq] at h
  split at h
  · next hs =>
    cases h
    exact { pc := .inr (.inr (.inr (.inr ⟨⟨s.sp.val - 1, by omega⟩, rfl⟩))) }
  · exact .raised h

theorem InstrFrame.call {nnn : Addr12} (h : execCall nnn s = .next t) : InstrFrame (.call nnn) s t := by
  rw [execCall_eq] at h
  split at h
  · next hs =>
    cases h
    have hn := toNat_addrOf_le nnn
    exact { stack := fun _ => ⟨nnn, rfl, ⟨s.sp.val, hs⟩, rfl⟩, pc := .inr (.inr (.inr (.inl (hn.trans (by decide))))) }
  · exact .raised h

theorem InstrFrame.draw {x y : RegIdx} {n : Nibble} (h : execDrwVxVyN x y n s = .next t) :
    InstrFrame (.drwVxVyN x y n) s t := by
  rw [execDrwVxVyN_eq] at h
  split at h
  · cases h
    exact { regs := fun r hr => State.getV_setV_ne s _ (by simpa [writesRegs] using hr) }
  · exact .raised h

theorem InstrFrame.loadRegs {x : RegIdx} (h : execLdVxMem x s = .next t) : InstrFrame (.ldVxMem x) s t := by
  rw [execLdVxMem_eq] at h
  split at h
  · cases h
    refine .wroteRegs fun r hr => ?_
    have hxr : x.val < r.val := by simpa [writesRegs] using hr
    refine (getElem_setRegsFrom _ s.v 0 r.val r.isLt).trans (dif_neg ?_)
    simp only [length_readBytes, rangeSize]; omega
  · exact .raised h

theorem InstrFrame.storeAtI {bytes : List Byte} (h : storeAtI bytes s = .next t) : InstrFrame i s t := by
  rw [storeAtI_eq] at h
  split at h
  · cases h; exact {}
  · exact .raised h

theorem InstrFrame.skipOnKey {x : RegIdx} {wantDown : Bool} (h : skipOnKey x wantDown s = .next t) :
    InstrFrame i s t := by
  rw [skipOnKey_eq] at h
  split at h
  · cases h; exact .skipIf _
  · exact .raised h

theorem InstrFrame.waitKey {x : RegIdx} (h : execLdVxK x s = .next t) : InstrFrame (.ldVxK x) s t := by
  cases hk : s.lowestKey with
  | none => cases (execLdVxK_of_none hk).symm.trans h; exact {}
  | some j => cases (execLdVxK_of_some hk).symm.trans h; exact .setV _ (by simp [writesRegs])

/-! ### All instructions, the cycle and the events -/

/-- Everything an instruction can write (R21 to R30, R101), under any configuration and random byte. -/
theorem execIn_frame (h : execIn c rnd i s = .next t) : InstrFrame i s t := by
  cases i with
  | cls => cases h; exact { screen := fun _ => .inl rfl }
  | ret => exact .ret h
  | jp nnn => cases h; exact .setPc (by have := toNat_addrOf_le nnn; omega)
  | call nnn => exact .call h
  | jpV0Nnn nnn => cases h; exact .setPc (toNat_offset_le nnn _)
  | seVxKk | sneVxKk | seVxVy | sneVxVy => cases h; exact .skipIf _
  | ldVxKk | addVxKk | ldVxVy | orVxVy | andVxVy | xorVxVy | ldVxDt =>
    cases h; exact .setV _ (by simp [writesRegs])
  | addVxVy | subVxVy | shrVx | subnVxVy | shlVx =>
    cases h; exact .setFlagged _ _ (by simp [writesRegs]) (by simp [writesRegs])
  | rndVxKk x kk =>
    cases h
    exact .wroteRegs fun r hr => State.getV_setV_ne s _ (by simpa [writesRegs] using hr)
  | drwVxVyN => exact .draw h
  | ldINnn | addIVx | ldFVx => cases h; exact .setI _ (by simp)
  | skpVx | sknpVx => exact .skipOnKey h
  | ldVxK => exact .waitKey h
  | ldDtVx | ldStVx => cases h; exact {}
  | ldBVx | ldMemVx => exact .storeAtI h
  | ldVxMem => exact .loadRegs h

/-- What a cycle can do to any field but the run/fault latch (R100): nothing, or what its next instruction does. -/
theorem cycle_cases_frame (h : cycle c rnd s = .next t) :
    (∃ st, t = { s with status := st }) ∨
    ∃ i, nextInstr c s = some i ∧ execIn c rnd i s = .next t ∧ InstrFrame i s t := by
  rcases cycle_cases h with ⟨-, -, e⟩ | ⟨-, -, e⟩ | ⟨-, w, r, -, -, e⟩ | ⟨i, hi, hx⟩
  · exact .inl ⟨s.status, e⟩
  · exact .inl ⟨_, e⟩
  · exact .inl ⟨_, e⟩
  · exact .inr ⟨i, hi, hx, execIn_frame hx⟩

/-- What an event can do (00_scope.md R4): `RESET` its own state, `STEP` a cycle, and the other three write memory,
the keypad snapshot and the timers at most. -/
theorem apply_cases {e : Event} (h : apply c e s = .next t) :
    (e = .reset ∧ t = resetEvent c s) ∨ (∃ rnd, e = .step rnd ∧ cycle c rnd s = .next t) ∨
    ∃ m k d b, t = { s with mem := m, keys := k, dt := d, st := b } := by
  cases e with
  | reset => cases h; exact .inl ⟨rfl, rfl⟩
  | step rnd => exact .inr (.inl ⟨rnd, rfl, h⟩)
  | load bytes =>
    cases h
    rcases load_cases bytes s with ⟨-, -, -, e⟩ | ⟨-, -, -, e⟩ | ⟨-, -, e⟩ <;>
      exact .inr (.inr ⟨_, s.keys, s.dt, s.st, e⟩)
  | setKeys k =>
    cases h
    rcases setKeys_cases k s with ⟨-, e⟩ | ⟨-, e⟩ <;> exact .inr (.inr ⟨s.mem, _, s.dt, s.st, e⟩)
  | tick =>
    cases h
    rcases tick_cases s with ⟨-, e⟩ | ⟨-, e⟩ <;> exact .inr (.inr ⟨s.mem, s.keys, _, _, e⟩)

end Sys2Proof.Machine
end

section
/-! PROOFS. The bounds on `pc` and on the saved addresses (41_flow.md R101, R104) are an invariant: they speak of `pc`
and the stack alone, and `InstrFrame` says what an instruction can make of these two. -/

namespace Sys2Proof.Machine

variable {c : Config} {rnd : Byte} {i : Instr} {s t : State}

theorem addressesBounded_congr (hs : addressesBounded s) (hpc : t.pc = s.pc) (hst : t.stack = s.stack) :
    addressesBounded t := by
  unfold addressesBounded
  rw [hpc, hst]
  exact hs

/-- An instruction fetched below 0xFFF keeps the bounds: it moves `pc` by at most 4, or to a bounded value, or to a
saved address, and saves at most `pc0 + 2`. -/
theorem InstrFrame.keeps_addressesBounded (h : InstrFrame i s t) (hf : s.pc.toNat ≤ 0xFFE)
    (hs : addressesBounded s) : addressesBounded t := by
  obtain ⟨-, hsaved⟩ := hs
  constructor
  · rcases h.pc with e | e | e | e | ⟨k, e⟩
    · rw [e]; omega
    · rw [e]; bv_omega
    · rw [e]; bv_omega
    · exact e
    · have := hsaved k; rw [e]; omega
  · intro k
    by_cases hst : t.stack = s.stack
    · rw [hst]; exact hsaved k
    · obtain ⟨-, -, j, e⟩ := h.stack hst
      simp only [e, Vector.getElem_set]
      split
      · bv_omega
      · exact hsaved k

theorem cycle_keeps_addressesBounded (hs : addressesBounded s) (h : cycle c rnd s = .next t) :
    addressesBounded t := by
  rcases cycle_cases_frame h with ⟨st, rfl⟩ | ⟨i, hi, -, hfr⟩
  · exact hs
  · obtain ⟨-, w, hw, -⟩ := nextInstr_some.1 hi
    exact hfr.keeps_addressesBounded (fetch_some hw) hs

theorem resetWith_addressesBounded (c : Config) : addressesBounded (resetWith c) := by
  constructor
  · simp [resetWith, State.reset]
  · intro k; simp [resetWith, State.reset]

/-- Settles O17: only RESET and STEP touch `pc` and the stack, and a cycle runs an instruction only where it could
fetch one, with `pc` at most 0xFFE. -/
theorem everyEventKeepsAddressesBounded : Obligations.EveryEventKeepsAddressesBounded := by
  refine ⟨fun c e s t hs h => ?_, fun s t hs h => cycle_keeps_addressesBounded hs h⟩
  rcases apply_cases h with ⟨-, rfl⟩ | ⟨rnd, -, h⟩ | ⟨m, k, d, b, rfl⟩
  · exact addressesBounded_congr (resetWith_addressesBounded c) rfl rfl
  · exact cycle_keeps_addressesBounded hs h
  · exact hs

/-- Settles O18: nothing is listed in memory but the font, `pc` is 0x200 and every saved address is 0. -/
theorem resetMeetsTheInvariants : Obligations.ResetMeetsTheInvariants :=
  ⟨reset_mem_wf, addressesBounded_congr (resetWith_addressesBounded Config.default) rfl rfl,
    fun c => ⟨wf_resetWith c, resetWith_addressesBounded c⟩⟩

end Sys2Proof.Machine
end

section
/-! PROOFS. Who writes what (10_state.md R22 to R30): each statement reads one field of `InstrFrame`. -/

namespace Sys2Proof.Machine

variable {c : Config} {rnd : Byte} {i : Instr} {s t : State}

/-- Every flag writer that raises no fault leaves a flag in `VF` (R22). -/
theorem execIn_flag (hi : writesFlag i = true) (h : execIn c rnd i s = .next t) (ht : t.status = .run) :
    ∃ f, t.getV flagReg = flagByte f := by
  cases i with
  | addVxVy | subVxVy | shrVx | subnVxVy | shlVx =>
    cases h; exact ⟨_, State.getV_setV_same ..⟩
  | drwVxVyN x y n =>
    change execDrwVxVyN x y n s = .next t at h
    rw [execDrwVxVyN_eq] at h
    split at h
    · cases h; exact ⟨_, State.getV_setV_same ..⟩
    · cases h; cases ht
  | _ => cases hi

/-- Settles O20: the registers by the frame of the instruction, the flag by the six flag writers. -/
theorem stepWritesOnlyItsRegisters : Obligations.StepWritesOnlyItsRegisters := by
  intro c rnd s t i hi h
  rw [cycle_of_nextInstr hi] at h
  refine ⟨(execIn_frame h).regs, fun hw ht => ?_⟩
  obtain ⟨f, hf⟩ := execIn_flag hw h ht
  rw [hf]
  exact flagByte_cases f

/-- Settles O21: an event but RESET that changes the buffer is a cycle, and its instruction one of the two. -/
theorem onlyDisplayInstructionsChangePixels : Obligations.OnlyDisplayInstructionsChangePixels := by
  intro c e s t h he hne
  have hfb : t.fb ≠ s.fb := fun e => hne fun r k => by rw [State.pixel, e]; rfl
  rcases apply_cases h with ⟨e, -⟩ | ⟨rnd, rfl, h⟩ | ⟨m, k, d, b, rfl⟩
  · exact absurd e he
  · rcases cycle_cases_frame h with ⟨st, rfl⟩ | ⟨i, hi, -, hfr⟩
    · exact absurd rfl hfb
    · rw [hi]
      exact ⟨⟨rnd, rfl⟩, by simpa using hfr.screen hfb⟩
  · exact absurd rfl hfb

/-- Settles O23: the fields `I`, stack and `sp` of the frame. -/
theorem onlyTheirInstructionsChangeIndexAndStack : Obligations.OnlyTheirInstructionsChangeIndexAndStack := by
  intro c rnd s t h
  rcases cycle_cases_frame h with ⟨st, rfl⟩ | ⟨i, hi, -, hfr⟩
  · simp
  · rw [hi]
    simp only [Option.some.injEq]
    exact ⟨hfr.index, fun hst => (hfr.stack hst).imp fun _ => And.left, hfr.cursor⟩

/-- Settles O24: the fields for the keypad and the two timers of the frame. -/
theorem stepKeepsKeysAndTimers : Obligations.StepKeepsKeysAndTimers := by
  intro c rnd s t h
  rcases cycle_cases_frame h with ⟨st, rfl⟩ | ⟨i, hi, -, hfr⟩
  · simp
  · rw [hi]
    simp only [Option.some.injEq]
    exact ⟨hfr.keys, hfr.delay, hfr.sound⟩

end Sys2Proof.Machine
end

section
/-! PROOFS. What a step does not look at (10_state.md R27, R30): other contents of the sound timer and of the keypad
snapshot are carried through an instruction. -/

namespace Sys2Proof.Machine

/-- The three instructions that read the keypad snapshot (R30). -/
def readsKeys : Instr → Bool
  | .skpVx _ | .sknpVx _ | .ldVxK _ => true
  | _ => false

/-- The state with other contents of the sound timer and the keypad snapshot. -/
def State.withHidden (s : State) (b : Byte) (k : Vector Bool 16) : State := { s with st := b, keys := k }

/-- Two outcomes of an instruction agree but for the sound timer and the keypad: from `s` it leads to `t`, from `s`
with the sound timer `b` and the keypad `k` to `t` with the same `k`, and with `b` where it left the timer alone. -/
def carriesHidden (run : State → Result) (s t : State) (b : Byte) (k : Vector Bool 16) : Prop :=
  ∃ b', run (s.withHidden b k) = .next (t.withHidden b' k) ∧ (b' = b ∧ t.st = s.st ∨ b' = t.st)

variable {c : Config} {rnd b : Byte} {k : Vector Bool 16} {i : Instr} {s t : State}

/-- An instruction with a guard carries the two through where neither the guard nor what it does reads them. -/
theorem carriesHidden_of_guard {run : State → Result} {p : Prop} [Decidable p] {u : p → State} {f : FaultReport}
    (he : run s = if hp : p then .next (u hp) else raise f s)
    (he' : run (s.withHidden b k) =
      if hp : p then .next ((u hp).withHidden b k) else raise f (s.withHidden b k))
    (hu : ∀ hp, (u hp).st = s.st) (h : run s = .next t) : carriesHidden run s t b k := by
  by_cases hp : p
  · rw [dif_pos hp] at he he'
    cases he.symm.trans h
    exact ⟨b, he', .inl ⟨rfl, hu hp⟩⟩
  · rw [dif_neg hp] at he he'
    cases he.symm.trans h
    exact ⟨b, he', .inl ⟨rfl, rfl⟩⟩

theorem skipOnKey_carriesSound {x : RegIdx} {wantDown : Bool} (h : skipOnKey x wantDown s = .next t) :
    carriesHidden (skipOnKey x wantDown) s t b s.keys :=
  carriesHidden_of_guard (skipOnKey_eq x wantDown s) (skipOnKey_eq x wantDown _) (fun _ => rfl) h

theorem storeAtI_carriesHidden {bytes : List Byte} (h : storeAtI bytes s = .next t) :
    carriesHidden (storeAtI bytes) s t b k :=
  carriesHidden_of_guard ((storeAtI_eq bytes s).trans dite_eq_ite.symm) (storeAtI_eq bytes _) (fun _ => rfl) h

theorem execLdVxK_carriesSound {x : RegIdx} (h : execLdVxK x s = .next t) :
    carriesHidden (execLdVxK x) s t b s.keys := by
  cases hk : s.lowestKey with
  | none =>
    cases (execLdVxK_of_none hk).symm.trans h
    exact ⟨b, execLdVxK_of_none hk, .inl ⟨rfl, rfl⟩⟩
  | some j =>
    cases (execLdVxK_of_some hk).symm.trans h
    exact ⟨b, execLdVxK_of_some hk, .inl ⟨rfl, rfl⟩⟩

/-- No instruction reads the sound timer, and only the three key instructions the keypad: all others carry both
through (R27, R30). -/
theorem execIn_carriesHidden (hk : readsKeys i = true → k = s.keys) (h : execIn c rnd i s = .next t) :
    carriesHidden (execIn c rnd i) s t b k := by
  cases i with
  | ret => exact carriesHidden_of_guard (execRet_eq s) (execRet_eq _) (fun _ => rfl) h
  | call nnn => exact carriesHidden_of_guard (execCall_eq nnn s) (execCall_eq nnn _) (fun _ => rfl) h
  | drwVxVyN x y n =>
    exact carriesHidden_of_guard ((execDrwVxVyN_eq x y n s).trans dite_eq_ite.symm) (execDrwVxVyN_eq x y n _)
      (fun _ => rfl) h
  | ldVxMem x =>
    exact carriesHidden_of_guard ((execLdVxMem_eq x s).trans dite_eq_ite.symm) (execLdVxMem_eq x _)
      (fun _ => rfl) h
  | ldBVx | ldMemVx => exact storeAtI_carriesHidden h
  | skpVx | sknpVx => rw [hk rfl]; exact skipOnKey_carriesSound h
  | ldVxK => rw [hk rfl]; exact execLdVxK_carriesSound h
  | ldStVx => cases h; exact ⟨_, rfl, .inr rfl⟩
  | cls | jp | jpV0Nnn | seVxKk | sneVxKk | seVxVy | sneVxVy | ldVxKk | addVxKk | ldVxVy | orVxVy | andVxVy
  | xorVxVy | addVxVy | subVxVy | shrVx | subnVxVy | shlVx | rndVxKk | ldINnn | addIVx | ldFVx | ldVxDt
  | ldDtVx =>
    cases h; exact ⟨b, rfl, .inl ⟨rfl, rfl⟩⟩

/-- The fetch and the decoder read neither. -/
theorem nextInstr_withHidden : nextInstr c (s.withHidden b k) = nextInstr c s := rfl

/-- A cycle carries the sound timer and the keypad through, the keypad where the next instruction does not read it. -/
theorem cycle_carriesHidden (hk : ∀ i, nextInstr c s = some i → readsKeys i = true → k = s.keys)
    (h : cycle c rnd s = .next t) : carriesHidden (cycle c rnd) s t b k := by
  rcases cycle_cases h with ⟨f, hf, rfl⟩ | ⟨hs, hpc, rfl⟩ | ⟨hs, w, r, hw, hr, rfl⟩ | ⟨i, hi, hx⟩
  · exact ⟨b, cycle_faulted (s := t.withHidden b k) hf, .inl ⟨rfl, rfl⟩⟩
  · have hnone : fetch (s.withHidden b k) = none := (fetch_eq _).trans (if_neg (Nat.not_le.2 hpc))
    refine ⟨b, ?_, .inl ⟨rfl, rfl⟩⟩
    rw [cycle_run (s := s.withHidden b k) hs, fetchAndExecute, hnone]
    rfl
  · have hsome : fetch (s.withHidden b k) = some w := hw
    refine ⟨b, ?_, .inl ⟨rfl, rfl⟩⟩
    rw [cycle_run (s := s.withHidden b k) hs, fetchAndExecute, hsome]
    simp only [decodeAndExecute, hr]
    rfl
  · obtain ⟨b', hb', hor⟩ := execIn_carriesHidden (b := b) (hk i hi) hx
    exact ⟨b', (cycle_of_nextInstr (nextInstr_withHidden.trans hi)).trans hb', hor⟩

/-- A cycle never changes the keypad snapshot (R160). -/
theorem cycle_keys (h : cycle c rnd s = .next t) : t.keys = s.keys := by
  rcases cycle_cases_frame h with ⟨st, rfl⟩ | ⟨i, -, -, hfr⟩
  · rfl
  · exact hfr.keys

/-- Settles O59: the cycle carries the sound timer through, the keypad left as it is. -/
theorem noInstructionReadsTheSoundTimer : Obligations.NoInstructionReadsTheSoundTimer := by
  intro c rnd b s t h
  obtain ⟨b', hb', hor⟩ := cycle_carriesHidden (b := b) (k := s.keys) (fun _ _ _ => rfl) h
  refine ⟨t.withHidden b' s.keys, hb', ?_, fun hst => ?_⟩
  · rw [← cycle_keys h]; rfl
  · exact hor.resolve_left fun e => hst e.2

/-- Settles O60: the cycle carries the keypad through, the sound timer left as it is. -/
theorem onlyKeyInstructionsReadTheKeypad : Obligations.OnlyKeyInstructionsReadTheKeypad := by
  intro c rnd k s t hno h
  have hk : ∀ i, nextInstr c s = some i → readsKeys i = true → k = s.keys := by
    intro i hi hr
    cases i with
    | skpVx x => exact absurd hi (hno x).1
    | sknpVx x => exact absurd hi (hno x).2.1
    | ldVxK x => exact absurd hi (hno x).2.2
    | _ => cases hr
  obtain ⟨b', hb', hor⟩ := cycle_carriesHidden (b := s.st) hk h
  have hst : b' = t.st := by
    rcases hor with ⟨e, e'⟩ | e
    · rw [e, e']
    · exact e
  rw [hst] at hb'
  exact hb'

end Sys2Proof.Machine
end

section
/-! PROOFS. Draw-sprite (40_display.md R91, R92): what the drawing loop does, said of the sprite of a state. -/

namespace Sys2Proof.Machine

variable {x y : RegIdx} {n : Nibble} {s t : State}

theorem accessOutOfBounds_iff (s : State) (m : Nat) :
    accessOutOfBounds s m ↔ ¬(m = 0 ∨ s.i.toNat + m ≤ memSize) := by
  simp only [accessOutOfBounds, memSize]; omega

/-- The cells of the rows read from `I` are the cells of the sprite. -/
theorem rowsCell_readBytes_iff (r k : Nat) :
    rowsCell (s.getV x).toNat (s.getV y).toNat (readBytes s.mem s.i.toNat n.toNat) r k ↔
      inSprite s x y n r k := by
  simp only [rowsCell, inSprite, length_readBytes, getElem_readBytes, exists_prop]
  constructor
  · rintro ⟨hy, hr, hk, hx, hx', hn, hbit⟩
    exact ⟨hr, hk, hy, by omega, hx, hx', hbit⟩
  · rintro ⟨hr, hk, hy, hn, hx, hx', hbit⟩
    exact ⟨hy, hr, hk, hx, hx', by omega, hbit⟩

/-- Drawing flips exactly the cells of the sprite (R92 (a)). -/
theorem pixelAt_spriteCanvas (r k : Nat) :
    pixelAt (spriteCanvas x y n s).fb r k = true ↔ ¬(s.pixel r k = true ↔ inSprite s x y n r k) := by
  rw [← rowsCell_readBytes_iff]
  exact (drawRows_spec ..).1 r k

/-- Drawing collides exactly when a cell of the sprite was lit (R92 (b)). -/
theorem collision_spriteCanvas :
    (spriteCanvas x y n s).collision = true ↔ ∃ r k, inSprite s x y n r k ∧ s.pixel r k = true := by
  have hdraw := (drawRows_spec (s.getV x).toNat (s.getV y).toNat
    (readBytes s.mem s.i.toNat n.toNat) ⟨s.fb, false⟩).2
  simp only [rowsCell_readBytes_iff, Bool.false_eq_true, false_or] at hdraw
  exact hdraw

theorem flagByte_eq_one_iff (f : Bool) : flagByte f = 1 ↔ f = true := by cases f <;> decide

theorem flagByte_eq_zero_iff (f : Bool) : flagByte f = 0 ↔ ¬f = true := by cases f <;> decide

/-- The state after a draw whose bytes are in bounds (R91). -/
def State.drawn (x y : RegIdx) (n : Nibble) (s : State) : State :=
  ({ s with fb := (spriteCanvas x y n s).fb }.setVF (spriteCanvas x y n s).collision).advance

theorem exec_drw_of_inBounds (h : ¬accessOutOfBounds s n.toNat) :
    exec (.drwVxVyN x y n) s = .next (s.drawn x y n) := by
  rw [accessOutOfBounds_iff, not_not] at h
  exact (execDrwVxVyN_eq x y n s).trans (if_pos h)

theorem exec_drw_of_outOfBounds (h : accessOutOfBounds s n.toNat) :
    exec (.drwVxVyN x y n) s = .next { s with status := .fault (.memoryOutOfBounds s.pc s.i n.toNat) } := by
  rw [accessOutOfBounds_iff] at h
  exact (execDrwVxVyN_eq x y n s).trans (if_neg h)

theorem pixel_drawn (r k : Nat) :
    (s.drawn x y n).pixel r k = true ↔ ¬(s.pixel r k = true ↔ inSprite s x y n r k) :=
  pixelAt_spriteCanvas r k

theorem pixel_drawn_ne_iff (r k : Nat) :
    (s.drawn x y n).pixel r k ≠ s.pixel r k ↔ inSprite s x y n r k := by
  rw [ne_eq, Bool.eq_iff_iff, pixel_drawn]; tauto

theorem flag_drawn : (s.drawn x y n).getV flagReg = flagByte (spriteCanvas x y n s).collision :=
  State.getV_setV_same ..

theorem flag_drawn_eq_one_iff :
    (s.drawn x y n).getV flagReg = 1 ↔ ∃ r k, inSprite s x y n r k ∧ s.pixel r k = true := by
  rw [flag_drawn, flagByte_eq_one_iff, collision_spriteCanvas]

theorem flag_drawn_eq_zero_iff :
    (s.drawn x y n).getV flagReg = 0 ↔ ¬∃ r k, inSprite s x y n r k ∧ s.pixel r k = true := by
  rw [flag_drawn, flagByte_eq_zero_iff, collision_spriteCanvas]

/-- Settles O26: the drawing loop on the sprite of the state, or the fault before any pixel. -/
theorem drawSpriteFlipsExactlyItsCells : Obligations.DrawSpriteFlipsExactlyItsCells := by
  refine fun x y n s => ⟨exec_drw_of_outOfBounds, fun h => ⟨_, exec_drw_of_inBounds h, pixel_drawn_ne_iff,
    flag_drawn_eq_one_iff, flag_drawn_eq_zero_iff, rfl, fun r hr => ?_, rfl, ⟨rfl, fun _ => rfl⟩, ⟨rfl, rfl⟩,
    fun _ => rfl, ⟨rfl, rfl⟩, rfl⟩⟩
  exact State.getV_setV_ne s _ (by simpa using hr)

/-- The sprite of another state with the same `I`, bytes and coordinates has the same cells. -/
theorem inSprite_congr {s₂ : State} (hi : s₂.i = s.i) (hx : s₂.getV x = s.getV x) (hy : s₂.getV y = s.getV y)
    (hm : ∀ k < n.toNat, readByte s₂.mem (s.i.toNat + k) = readByte s.mem (s.i.toNat + k)) (r k : Nat) :
    inSprite s₂ x y n r k ↔ inSprite s x y n r k := by
  simp only [inSprite, hi, hx, hy]
  by_cases hr : (s.getV y).toNat ≤ r ∧ r < (s.getV y).toNat + n.toNat
  · rw [hm _ (by omega)]
  · tauto

/-- Settles O27: both draws flip the same cells, so the second finds lit exactly the cells of the sprite that the
first found unlit. -/
theorem drawingTwiceRestoresTheScreen : Obligations.DrawingTwiceRestoresTheScreen := by
  intro x y n s t s₂ u hb ht hfb hi hx hy hm hu
  have hb₂ : ¬accessOutOfBounds s₂ n.toNat := by rw [accessOutOfBounds, hi]; exact hb
  cases (exec_drw_of_inBounds hb).symm.trans ht
  cases (exec_drw_of_inBounds hb₂).symm.trans hu
  have hcells := inSprite_congr hi hx hy hm
  have hbetween : ∀ r k, s₂.pixel r k = true ↔ ¬(s.pixel r k = true ↔ inSprite s x y n r k) := by
    intro r k; rw [State.pixel, hfb]; exact pixel_drawn r k
  refine ⟨pixel_drawn_ne_iff, fun r k => ?restored, flag_drawn_eq_one_iff, ?flag, fun r k hout => ?outside⟩
  case restored =>
    rw [Bool.eq_iff_iff, pixel_drawn, hbetween, hcells]; tauto
  case flag =>
    have hlit : ∀ r k, (inSprite s₂ x y n r k ∧ s₂.pixel r k = true) ↔
        (inSprite s x y n r k ∧ s.pixel r k = false) := by
      intro r k; rw [hcells, hbetween, ← Bool.not_eq_true]; tauto
    simp only [flag_drawn_eq_one_iff, hlit]
  case outside =>
    by_contra hne
    obtain ⟨-, -, hy₁, hy₂, hx₁, hx₂, -⟩ := (pixel_drawn_ne_iff r k).1 hne
    exact hout ⟨hy₁, hy₂, hx₁, by omega⟩

end Sys2Proof.Machine
end

section
/-! PROOFS. Call (41_flow.md R104) and the skips on a key (44_keypad_timers.md R140, R141), each on both sides of its
guard. -/

namespace Sys2Proof.Machine

/-- Settles O29: the two sides of the guard `sp < 16`. -/
theorem callPushesTheReturnAddress : Obligations.CallPushesTheReturnAddress := by
  refine fun nnn s => ⟨fun hs => ?_, fun k hk => ?_⟩
  · have hfull : ¬s.sp.val < 16 := by rw [hs]; decide
    exact (execCall_eq nnn s).trans (dif_neg hfull)
  · have hfree : s.sp.val < 16 := by omega
    refine ⟨_, (execCall_eq nnn s).trans (dif_pos hfree), ?_, fun j hj => ?_, ?_, toNat_addrOf nnn, fun _ => rfl, rfl,
      ⟨rfl, rfl⟩, fun _ => rfl, fun _ _ => rfl, ⟨rfl, rfl⟩, rfl⟩
    · simp [hk]
    · have hne : s.sp.val ≠ j.val := fun e => hj (Fin.ext (e.symm.trans hk))
      exact Vector.getElem_set_ne hfree j.isLt hne
    · simp [hk]

/-- A skip on the key that `V[x]` names moves `pc` alone (R140, R141). -/
theorem skipOnKey_of_key {x : RegIdx} {s : State} {j : Fin 16} (wantDown : Bool) (hj : (s.getV x).toNat = j.val) :
    skipOnKey x wantDown s = .next (s.skipIf (s.keys[j.val] == wantDown)) := by
  have hk : (s.getV x).toNat < 16 := by omega
  have hkey : (⟨(s.getV x).toNat, hk⟩ : Fin 16) = j := Fin.ext hj
  rw [skipOnKey_eq, dif_pos hk, hkey]
  rfl

/-- A skip on a register above 15 is the fault (R140, R141). -/
theorem skipOnKey_of_noKey {x : RegIdx} {s : State} (wantDown : Bool) (hx : 15 < (s.getV x).toNat) :
    skipOnKey x wantDown s =
      .next { s with status := .fault (.keyIndexOutOfRange s.pc (s.getV x)) } := by
  rw [skipOnKey_eq, dif_neg (by omega)]
  rfl

theorem skipIf_keepsAllButPc (s : State) (taken : Bool) : keepsAllButPc s (s.skipIf taken) :=
  ⟨fun _ => rfl, rfl, ⟨rfl, fun _ => rfl⟩, ⟨rfl, rfl⟩, fun _ => rfl, fun _ _ => rfl, ⟨rfl, rfl⟩, rfl⟩

/-- Settles O48: both skips on a key, by whether `V[x]` names one. -/
theorem skipsOnKeys : Obligations.SkipsOnKeys := by
  refine fun x s => ⟨fun hx => ⟨skipOnKey_of_noKey true hx, skipOnKey_of_noKey false hx⟩, fun k hk =>
    ⟨⟨_, skipOnKey_of_key true hk, skipIf_keepsAllButPc s _, fun hd => ?_, fun hu => ?_⟩,
      ⟨_, skipOnKey_of_key false hk, skipIf_keepsAllButPc s _, fun hu => ?_, fun hd => ?_⟩⟩⟩
  · simp [hd]
  · simp [hu]
  · simp [hu]
  · simp [hd]

end Sys2Proof.Machine
end

section
/-! PROOFS. The events of the host: `SETKEYS` (60_exceptions.md R160), `RESET` (10_state.md R33) and the boot
sequence (70_reset_and_hazards.md R172). -/

namespace Sys2Proof.Machine

theorem setKeys_run {s : State} (k : Vector Bool 16) (h : s.status = .run) :
    setKeys k s = { s with keys := k } :=
  (setKeys_cases k s).elim And.right fun h' => absurd h h'.1

theorem setKeys_faulted {s : State} (k : Vector Bool 16) (h : s.status ≠ .run) : setKeys k s = s :=
  (setKeys_cases k s).elim (fun h' => absurd h'.1 h) And.right

/-- Settles O52: the snapshot is written, and the skip on a key reads the written one. -/
theorem setKeysWritesTheSnapshot : Obligations.SetKeysWritesTheSnapshot := by
  refine fun k s => ⟨fun hs => ⟨setKeys_run k hs, fun x j hj => ?_⟩, setKeys_faulted k⟩
  rw [setKeys_run k hs]
  refine ⟨_, skipOnKey_of_key (s := { s with keys := k }) true hj, ?_⟩
  simp

/-- The font stands in memory from address 0 after `RESET` (R52). -/
theorem readByte_resetWith_font (c : Config) (d : Fin 16) (k : Fin 5) :
    readByte (resetWith c).mem (d.val * 5 + k.val) = c.font[d.val][k.val] := by
  have hlen : d.val * 5 + k.val < (fontBytes c.font).length := by rw [length_fontBytes]; omega
  have h := readByte_writeBytes_inside (fontBytes c.font) State.reset.mem 0 _ hlen
  rw [Nat.zero_add, getElem_fontBytes c.font d.isLt k.isLt] at h
  exact h

/-- Every byte past the font is 0 after `RESET` (R33). -/
theorem readByte_resetWith_past_font (c : Config) {a : Nat} (ha : 0x50 ≤ a) :
    readByte (resetWith c).mem a = 0 := by
  have hout : a < 0 ∨ 0 + (fontBytes c.font).length ≤ a := by rw [length_fontBytes]; omega
  exact (readByte_writeBytes_outside (fontBytes c.font) State.reset.mem 0 a hout).trans (dif_neg (by omega))

/-- A run of stores that stores what memory holds already changes no byte that can be read. -/
theorem writeBytes_self (bs : List Byte) (m : List Host.Cell) (a : Nat) (hw : Memory.wf m = true)
    (hlen : a + bs.length ≤ memSize) (h : ∀ k, (hk : k < bs.length) → readByte m (a + k) = bs[k]) :
    writeBytes m a bs = m := by
  refine wfFrom_ext _ _ 0 (wf_writeBytes bs m a hlen hw) hw fun b => ?_
  rw [readByte_writeBytes]
  split
  · next hb =>
    have := h (b - a) hb.2
    rw [← this]
    congr 1
    omega
  · rfl

/-- Each byte of the default font is what its address reads as where memory lists nothing (log entry 12). -/
theorem unlisted_eq_fontBytes (j : Nat) (hj : j < (fontBytes Config.default.font).length) :
    unlisted j = (fontBytes Config.default.font)[j] := by
  have h80 : j < 80 := by rwa [length_fontBytes] at hj
  have h := getElem_fontBytes Config.default.font (d := j / 5) (k := j % 5) (by omega) (by omega)
  simp only [Nat.div_add_mod' j 5] at h
  rw [h]
  exact dif_pos h80

theorem resetWith_default : resetWith Config.default = State.reset := by
  have hmem : writeBytes State.reset.mem 0 (fontBytes Config.default.font) = State.reset.mem := by
    refine writeBytes_self _ _ _ reset_mem_wf (by rw [length_fontBytes]; decide) fun j hj => ?_
    rw [Nat.zero_add]
    exact unlisted_eq_fontBytes j hj
  rw [resetWith, hmem]

/-- Settles O54: the table of R33 field by field, memory by the two reads after `RESET`. -/
theorem resetLeavesTheTable : Obligations.ResetLeavesTheTable := by
  refine ⟨fun c s => ⟨fun r => ?_, rfl, rfl, fun k => ?_, rfl, rfl, rfl, readByte_resetWith_font c,
    fun a => readByte_resetWith_past_font c, pixelAt_blankScreen, fun k => ?_, rfl⟩, resetWith_default⟩
  · exact Vector.getElem_replicate r.isLt
  · exact Vector.getElem_replicate k.isLt
  · exact Vector.getElem_replicate k.isLt

/-- `LOAD` in a running core of a program that fits stores it from 0x200 (R171). -/
theorem load_of_fits {bytes : List Byte} {s : State} (hs : s.status = .run) (hlen : bytes.length ≤ 3584) :
    load bytes s = { s with mem := writeBytes s.mem progBase bytes } := by
  rcases load_cases bytes s with ⟨-, -, -, e⟩ | ⟨-, h, -⟩ | ⟨h, -⟩
  · exact e
  · omega
  · exact absurd hs h

/-- The word at 0x200 after a program of two bytes or more is stored there: its first two bytes (R54). -/
theorem fetch_stored_program (s : State) (hi lo : Byte) (rest : List Byte) (hpc : s.pc = 0x200) :
    fetch { s with mem := writeBytes s.mem progBase (hi :: lo :: rest) } = some (wordOfBytes hi lo) := by
  have h0 := readByte_writeBytes_inside (hi :: lo :: rest) s.mem progBase 0 (by simp)
  have h1 := readByte_writeBytes_inside (hi :: lo :: rest) s.mem progBase 1 (by simp)
  rw [fetch_eq]
  simp only [hpc]
  rw [if_pos (by decide)]
  exact congrArg some (congrArg₂ wordOfBytes h0 h1)

/-- Settles O55: with a program the load is fetched; with none the word at 0x200 is 0x0000, which is illegal. -/
theorem bootFetchesTheProgram : Obligations.BootFetchesTheProgram := by
  constructor
  · intro c s hi lo rest hlen
    refine ⟨_, rfl, ?_⟩
    rw [load_of_fits (bytes := hi :: lo :: rest) (s := resetEvent c s) rfl hlen]
    exact ⟨rfl, rfl, fetch_stored_program _ hi lo rest rfl⟩
  · intro s rnd
    have hmem : (resetEvent Config.default s).mem = [] := congrArg State.mem resetWith_default
    have hfetch : fetch (resetEvent Config.default s) = some 0x0000 := by
      rw [fetch_eq, hmem, show (resetEvent Config.default s).pc = 0x200 from rfl]
      decide
    have hdecode : decodeWord Config.default 0x0000 = .error .family0 := by decide
    have hcycle : cycle Config.default rnd (resetEvent Config.default s) =
        raise (.decodeFailure 0x200 0x0000) (resetEvent Config.default s) := by
      rw [cycle_run rfl, fetchAndExecute, hfetch]
      simp only [decodeAndExecute, hdecode]
      rfl
    refine ⟨{ resetEvent Config.default s with status := .fault (.decodeFailure 0x200 0x0000) }, ?_, rfl, rfl⟩
    simp only [applyAll, apply, hcycle]
    rfl

end Sys2Proof.Machine
end

section
/-! PROOFS. What can write memory (20_memory.md R50, R53): the two stores through `I`, said once for all 34
instructions; and the canonical form, which every event keeps. -/

namespace Sys2Proof.Machine

/-- The bytes an instruction stores from `I` upward where it is in bounds (43_index_memory.md R133, R134): none but
for the two stores. -/
def storedBytes (s : State) : Instr → List Byte
  | .ldBVx x => bcdDigits (s.getV x)
  | .ldMemVx x => s.regsThrough x
  | _ => []

variable {c : Config} {rnd : Byte} {i : Instr} {s t : State}

/-- An instruction with a guard leaves memory alone where what it does leaves it alone. -/
theorem mem_of_guard {o : Result} {p : Prop} [Decidable p] {u : p → State} {f : FaultReport}
    (he : o = if hp : p then .next (u hp) else raise f s) (hu : ∀ hp, (u hp).mem = s.mem) (h : o = .next t) :
    t.mem = s.mem := by
  by_cases hp : p
  · rw [dif_pos hp] at he
    cases he.symm.trans h
    exact hu hp
  · rw [dif_neg hp] at he
    cases he.symm.trans h
    rfl

theorem execLdVxK_mem {x : RegIdx} (h : execLdVxK x s = .next t) : t.mem = s.mem := by
  cases hk : s.lowestKey with
  | none => cases (execLdVxK_of_none hk).symm.trans h; rfl
  | some j => cases (execLdVxK_of_some hk).symm.trans h; rfl

/-- Memory after a store through `I`: as it was, where the store faults, or with all its bytes (R53). -/
theorem storeAtI_mem {bytes : List Byte} (h : storeAtI bytes s = .next t) :
    t.mem = s.mem ∨
      (bytes.length = 0 ∨ s.i.toNat + bytes.length ≤ memSize) ∧ t.mem = writeBytes s.mem s.i.toNat bytes := by
  rw [storeAtI_eq] at h
  split at h
  · next hb => cases h; exact .inr ⟨hb, rfl⟩
  · cases h; exact .inl rfl

/-- Memory after any instruction: as it was, or with the bytes the instruction stores, which lie inside it (R50). -/
theorem execIn_mem (h : execIn c rnd i s = .next t) :
    t.mem = s.mem ∨ ((storedBytes s i).length = 0 ∨ s.i.toNat + (storedBytes s i).length ≤ memSize) ∧
      t.mem = writeBytes s.mem s.i.toNat (storedBytes s i) := by
  cases i with
  | ldBVx | ldMemVx => exact storeAtI_mem h
  | ret => exact .inl (mem_of_guard (execRet_eq s) (fun _ => rfl) h)
  | call nnn => exact .inl (mem_of_guard (execCall_eq nnn s) (fun _ => rfl) h)
  | drwVxVyN x y n => exact .inl (mem_of_guard ((execDrwVxVyN_eq x y n s).trans dite_eq_ite.symm) (fun _ => rfl) h)
  | ldVxMem x => exact .inl (mem_of_guard ((execLdVxMem_eq x s).trans dite_eq_ite.symm) (fun _ => rfl) h)
  | skpVx x => exact .inl (mem_of_guard (skipOnKey_eq x true s) (fun _ => rfl) h)
  | sknpVx x => exact .inl (mem_of_guard (skipOnKey_eq x false s) (fun _ => rfl) h)
  | ldVxK x => exact .inl (execLdVxK_mem h)
  | cls | jp | jpV0Nnn | seVxKk | sneVxKk | seVxVy | sneVxVy | ldVxKk | addVxKk | ldVxVy | orVxVy | andVxVy
  | xorVxVy | addVxVy | subVxVy | shrVx | subnVxVy | shlVx | rndVxKk | ldINnn | addIVx | ldFVx | ldVxDt
  | ldDtVx | ldStVx =>
    cases h; exact .inl rfl

theorem memoryCanonical_congr (hs : memoryCanonical s) (hm : t.mem = s.mem) : memoryCanonical t := by
  rw [memoryCanonical, hm]; exact hs

theorem execIn_keeps_memoryCanonical (hs : memoryCanonical s) (h : execIn c rnd i s = .next t) :
    memoryCanonical t := by
  rcases execIn_mem h with hm | ⟨hb, hm⟩
  · exact memoryCanonical_congr hs hm
  · rw [memoryCanonical, hm]
    exact memWrite_keeps_wf ((memWrite_eq s _ _).trans (if_pos hb)) hs

theorem cycle_keeps_memoryCanonical (hs : memoryCanonical s) (h : cycle c rnd s = .next t) :
    memoryCanonical t := by
  rcases cycle_cases_frame h with ⟨st, rfl⟩ | ⟨i, -, hx, -⟩
  · exact hs
  · exact execIn_keeps_memoryCanonical hs hx

/-- `LOAD` accepts only a program that ends inside memory (70_reset_and_hazards.md R171). -/
theorem load_keeps_memoryCanonical (bytes : List Byte) (hs : memoryCanonical s) : memoryCanonical (load bytes s) := by
  rcases load_cases bytes s with ⟨-, hlen, -, e⟩ | ⟨-, -, -, e⟩ | ⟨-, -, e⟩
  · rw [e]
    exact wf_writeBytes bytes s.mem progBase (by simp only [progBase, memSize]; omega) hs
  · rw [e]; exact hs
  · rw [e]; exact hs

theorem setKeys_keeps_memoryCanonical (k : Vector Bool 16) (hs : memoryCanonical s) :
    memoryCanonical (setKeys k s) := by
  rcases setKeys_cases k s with ⟨-, e⟩ | ⟨-, e⟩ <;> rw [e] <;> exact hs

theorem apply_keeps_memoryCanonical {e : Event} (hs : memoryCanonical s) (h : apply c e s = .next t) :
    memoryCanonical t := by
  cases e with
  | reset => cases h; exact wf_resetWith c
  | load bytes => cases h; exact load_keeps_memoryCanonical bytes hs
  | setKeys k => cases h; exact setKeys_keeps_memoryCanonical k hs
  | step rnd => exact cycle_keeps_memoryCanonical hs h
  | tick => cases h; exact memoryCanonical_congr hs (tick_mem s)

/-- Settles O16: RESET, LOAD and the two stores write memory, each by a run of stores that ends inside it. -/
theorem everyEventKeepsMemoryCanonical : Obligations.EveryEventKeepsMemoryCanonical :=
  ⟨fun _ _ _ _ => apply_keeps_memoryCanonical, fun _ _ => cycle_keeps_memoryCanonical⟩

/-- What holds after reset and is kept by every event holds of every reachable state (00_scope.md R4). -/
theorem Reachable.invariant {P : State → Prop} (hstart : P (resetWith c))
    (hevent : ∀ e s t, P s → apply c e s = .next t → P t) (h : Reachable c s) : P s := by
  induction h with
  | start => exact hstart
  | event e _ ha ih => exact hevent e _ _ ih ha

theorem Reachable.memoryCanonical (h : Reachable c s) : memoryCanonical s :=
  h.invariant (wf_resetWith c) fun _ _ _ => apply_keeps_memoryCanonical

theorem Reachable.addressesBounded (h : Reachable c s) : addressesBounded s :=
  h.invariant (resetWith_addressesBounded c) (everyEventKeepsAddressesBounded.1 c)

/-- Settles O19: the two invariants by induction over the schedule; canonical memories that read alike are equal. -/
theorem reachableStatesAreCanonical : Obligations.ReachableStatesAreCanonical :=
  ⟨fun _ _ h => ⟨h.memoryCanonical, h.addressesBounded⟩,
    fun _ _ _ _ hs ht => wfFrom_ext _ _ 0 ht.memoryCanonical hs.memoryCanonical⟩

/-- A byte that an instruction changes is one of those it stores. -/
theorem mem_range_of_execIn_changes {a : Nat} (h : execIn c rnd i s = .next t)
    (hne : readByte t.mem a ≠ readByte s.mem a) :
    s.i.toNat ≤ a ∧ a < s.i.toNat + (storedBytes s i).length := by
  rcases execIn_mem h with hm | ⟨-, hm⟩
  · rw [hm] at hne; exact absurd rfl hne
  · by_contra hout
    rw [hm] at hne
    exact hne (readByte_writeBytes_outside _ _ _ _ (by omega))

/-- Settles O22: the changed byte is one of those the next instruction stores, and only the two stores store any. -/
theorem onlyStoresChangeMemory : Obligations.OnlyStoresChangeMemory := by
  intro c rnd s t a h hne
  rcases cycle_cases_frame h with ⟨st, rfl⟩ | ⟨i, hi, hx, -⟩
  · exact absurd rfl hne
  · obtain ⟨hlo, hhi⟩ := mem_range_of_execIn_changes hx hne
    cases i with
    | ldBVx x => exact ⟨x, .inl ⟨hi, hlo, hhi⟩⟩
    | ldMemVx x => exact ⟨x, .inr ⟨hi, hlo, by rwa [storedBytes, length_regsThrough] at hhi⟩⟩
    | _ => exact absurd hlo (Nat.not_le.2 hhi)

end Sys2Proof.Machine
end

section
/-! PROOFS. The two stores through `I` on both sides of the bounds check (43_index_memory.md R133, R134), the fetch
(20_memory.md R54) and the load of a program (70_reset_and_hazards.md R171): what is read after each. -/

namespace Sys2Proof.Machine

/-- The state after a store through `I` that is in bounds (R53). -/
def State.stored (s : State) (bytes : List Byte) : State :=
  ({ s with mem := writeBytes s.mem s.i.toNat bytes } : State).advance

variable {s : State} {bytes : List Byte} {n : Nat}

theorem storeAtI_of_inBounds (hn : bytes.length = n) (h : ¬accessOutOfBounds s n) :
    storeAtI bytes s = .next (s.stored bytes) := by
  rw [accessOutOfBounds_iff, not_not, ← hn] at h
  exact (storeAtI_eq bytes s).trans (if_pos h)

theorem storeAtI_of_outOfBounds (hn : bytes.length = n) (h : accessOutOfBounds s n) :
    storeAtI bytes s = .next { s with status := .fault (.memoryOutOfBounds s.pc s.i n) } := by
  rw [accessOutOfBounds_iff, ← hn] at h
  rw [storeAtI_eq, if_neg h, hn]
  rfl

theorem stored_keepsAllButMem (s : State) (bytes : List Byte) : keepsAllButMem s (s.stored bytes) :=
  ⟨fun _ => rfl, rfl, ⟨rfl, fun _ => rfl⟩, ⟨rfl, rfl⟩, fun _ _ => rfl, ⟨rfl, rfl⟩, rfl⟩

theorem stored_keepsMemOutside (hn : bytes.length = n) : keepsMemOutside s.i.toNat n s (s.stored bytes) :=
  fun b hb => readByte_writeBytes_outside bytes s.mem s.i.toNat b (by rwa [hn])

theorem readByte_stored {k : Nat} (hk : k < bytes.length) :
    readByte (s.stored bytes).mem (s.i.toNat + k) = bytes[k] :=
  readByte_writeBytes_inside bytes s.mem s.i.toNat k hk

/-- Settles O43: the three digits of a byte are each below 256, so the stored bytes hold them whole. -/
theorem storeBcdWritesThreeDigits : Obligations.StoreBcdWritesThreeDigits := by
  refine fun x s => ⟨storeAtI_of_outOfBounds (length_bcdDigits _), fun h =>
    ⟨_, storeAtI_of_inBounds (length_bcdDigits _) h, ?digits, stored_keepsMemOutside (length_bcdDigits _), rfl,
      stored_keepsAllButMem s _⟩⟩
  have hlt := (s.getV x).isLt
  have hread : ∀ k, (hk : k < 3) →
      readByte (s.stored (bcdDigits (s.getV x))).mem (s.i.toNat + k) = (bcdDigits (s.getV x))[k] :=
    fun _ hk => readByte_stored hk
  refine ⟨(s.getV x).toNat / 100, (s.getV x).toNat / 10 % 10, (s.getV x).toNat % 10, by omega, by omega, by omega,
    by omega, ?_, ?_, ?_⟩
  · exact (congrArg BitVec.toNat (hread 0 (by decide))).trans (Nat.mod_eq_of_lt (by omega))
  · exact (congrArg BitVec.toNat (hread 1 (by decide))).trans (Nat.mod_eq_of_lt (by omega))
  · exact (congrArg BitVec.toNat (hread 2 (by decide))).trans (Nat.mod_eq_of_lt (by omega))

/-- After a store of registers the byte at `I + r` is `V[r]`, for `r` up to `x` (R134). -/
theorem readByte_stored_regsThrough (s : State) {x r : RegIdx} (hr : r ≤ x) :
    readByte (s.stored (s.regsThrough x)).mem (s.i.toNat + r.val) = s.getV r := by
  have hlen : r.val < (s.regsThrough x).length := by rw [length_regsThrough]; exact Nat.lt_succ_of_le hr
  exact (readByte_stored hlen).trans (getElem_regsThrough s x r.val hlen)

/-- Settles O44: the two sides of the bounds check on the range through `x`. -/
theorem storeRegistersThroughX : Obligations.StoreRegistersThroughX :=
  fun x s => ⟨storeAtI_of_outOfBounds (length_regsThrough s x), fun h =>
    ⟨_, storeAtI_of_inBounds (length_regsThrough s x) h, fun _ => readByte_stored_regsThrough s,
      stored_keepsMemOutside (length_regsThrough s x), rfl, stored_keepsAllButMem s _⟩⟩

/-- A step of a running core runs what the word it fetches decodes to (41_flow.md R100). -/
theorem step_of_fetch {w : Word} {i : Instr} (hs : s.status = .run) (hf : fetch s = some w)
    (hd : decodeWord Config.default w = .ok i) : step s = exec i s :=
  (cycle_of_nextInstr (nextInstr_some.2 ⟨hs, w, hf, hd⟩)).trans (execIn_default i s)

/-- Settles O47: both bytes of the fetch are stored registers. -/
theorem storeIsSeenByTheNextFetch : Obligations.StoreIsSeenByTheNextFetch := by
  intro x k m s t hm hmx hb h hpc hs
  cases (storeAtI_of_inBounds (length_regsThrough s x) hb).symm.trans h
  have hmx' : m.val ≤ x.val := hmx
  have hlast : s.i.toNat + m.val ≤ 0xFFF := by simp only [accessOutOfBounds] at hb; omega
  have hk := readByte_stored_regsThrough s (x := x) (r := k) (Fin.le_def.2 (by omega))
  have hm' := readByte_stored_regsThrough s hmx
  rw [hm, ← Nat.add_assoc] at hm'
  have hfetch : fetch (s.stored (s.regsThrough x)) = some (wordOfBytes (s.getV k) (s.getV m)) := by
    rw [fetch_eq, hpc, if_pos (by omega), hk, hm']
  exact ⟨hfetch, fun i => step_of_fetch hs hfetch⟩

/-- Settles O53: the three outcomes of LOAD; the program it stores is read back byte by byte. -/
theorem loadWritesTheProgram : Obligations.LoadWritesTheProgram := by
  intro bytes s
  rcases load_cases bytes s with ⟨hs, hlen, hres, he⟩ | ⟨hs, hlen, hres⟩ | ⟨hs, hres⟩
  · rw [he]
    exact ⟨fun _ _ => ⟨hres, readByte_writeBytes_inside bytes s.mem progBase,
        readByte_writeBytes_outside bytes s.mem progBase, rfl⟩,
      fun _ h => absurd hlen (Nat.not_le.2 h), fun h => absurd hs h⟩
  · exact ⟨fun _ h => absurd h (Nat.not_le.2 hlen), fun _ _ => hres, fun h => absurd hs h⟩
  · exact ⟨fun h => absurd h hs, fun h => absurd h hs, fun _ => hres⟩

/-- Settles O8: the word fetched is the byte at `pc` in front of the one at `pc + 1`. -/
theorem fetchIsBigEndian : Obligations.FetchIsBigEndian :=
  fun s h => ⟨_, (fetch_eq s).trans (if_pos h), toNat_wordOfBytes _ _⟩

end Sys2Proof.Machine
end

section
/-! PROOFS. The encoding (30_encoding.md R70 to R85): the decoder, the encoder, the canonical word and the opcode map
all follow from the set of words of an instruction (`wordsOf`). -/

namespace Sys2Proof

open Sys2Proof.Machine

variable {c : Config} {w : Word} {i : Instr}

/-! ### Decoding what the encoder writes (R72, R75) -/

/-- An encoded instruction decodes to itself. Only shift-left needs a sub-opcode of its own: the decoder looks for
the other eight of family 8 first (R77). -/
theorem decodeWord_encodeWord (hi : i.wf c = true) : decodeWord c (encodeWord c i) = .ok i := by
  cases i with
  | shlVx x => exact decodeWord_words hi (encodeWord_words c _)
  | cls | ret => simp [encodeWord, decodeWord, decodeFamily0]
  | jp | call | ldINnn | jpV0Nnn => simp [encodeWord, decodeWord]
  | seVxKk | sneVxKk | ldVxKk | addVxKk | rndVxKk => simp [encodeWord, decodeWord]
  | seVxVy | sneVxVy | drwVxVyN => simp [encodeWord, decodeWord]
  | ldVxVy | orVxVy | andVxVy | xorVxVy | addVxVy | subVxVy | shrVx | subnVxVy =>
    simp [encodeWord, decodeWord, decodeFamily8]
  | skpVx | sknpVx => simp [encodeWord, decodeWord, decodeFamilyE]
  | ldVxDt | ldVxK | ldDtVx | ldStVx | addIVx | ldFVx | ldBVx | ldMemVx | ldVxMem =>
    simp [encodeWord, decodeWord, decodeFamilyF]

/-- Two bytes of a word in front of any others decode as the word does (R54, R70). -/
theorem decodeBytes_bytes (c : Config) (w : Word) (rest : List Byte) :
    decodeBytes c (highByte w :: lowByte w :: rest) = some (decodeWord c w, rest) := by
  rw [decodeBytes, wordOfBytes_bytes]

/-- Settles O1: the word by the family and the selector that the encoder gives it, the bytes by the word. -/
theorem decodeInvertsEncode : Obligations.DecodeInvertsEncode := by
  intro c i hi
  have hdecode := decodeWord_encodeWord hi
  refine ⟨hdecode, fun rest => ?_⟩
  rw [← hdecode]
  exact decodeBytes_bytes c (encodeWord c i) rest

/-! ### The canonical word (R80, R84) -/

/-- In families 5 and 9 the canonical word has 0 for `n`. -/
theorem canonicalWord_formatR_of_family {op : Nibble} (hop : op = 0x5 ∨ op = 0x9) (x : RegIdx) (y n : Nibble) :
    canonicalWord c (formatR op x y n) = formatR op x y 0 := by
  rw [canonicalWord, fieldOp_formatR, if_pos hop, clear_n]
  simp

/-- In the two shifts the canonical word has 0 for `y`. -/
theorem canonicalWord_formatR_of_shift {n : Nibble} (hn : n = 0x6 ∨ n = c.shlSubop) (x : RegIdx) (y : Nibble) :
    canonicalWord c (formatR 0x8 x y n) = formatR 0x8 x 0 n := by
  rw [canonicalWord, fieldOp_formatR, fieldN_formatR, if_neg (by decide), if_pos ⟨rfl, hn⟩, clear_y]
  simp

/-- In family 8 but for the two shifts a word is canonical. -/
theorem canonicalWord_formatR_of_not_shift (hc : c.shlSubopFree = true) {n : Nibble} (hlt : n.toNat < 8)
    (hn : n ≠ 0x6) (x : RegIdx) (y : Nibble) :
    canonicalWord c (formatR 0x8 x y n) = formatR 0x8 x y n := by
  have hshift : ¬(n = 0x6 ∨ n = c.shlSubop) := not_or.2 ⟨hn, (subop_ne hc n hlt).symm⟩
  rw [canonicalWord, fieldOp_formatR, fieldN_formatR, if_neg (by decide), if_neg fun h => hshift h.2]

/-- In the families other than 5, 8 and 9 every nibble is examined. -/
theorem canonicalWord_of_family {op : Nibble} (hw : fieldOp w = op) (hop : op ≠ 0x5 ∧ op ≠ 0x8 ∧ op ≠ 0x9) :
    canonicalWord c w = w := by
  obtain ⟨h5, h8, h9⟩ := hop
  rw [canonicalWord, hw, if_neg (not_or.2 ⟨h5, h9⟩), if_neg fun h => h8 h.1]

/-- The encoder writes the canonical one of an instruction's words. -/
theorem encodeWord_eq_canonicalWord (hc : c.shlSubopFree = true) (h : wordsOf c w i) :
    encodeWord c i = canonicalWord c w := by
  symm
  cases i with
  | seVxVy | sneVxVy => obtain ⟨n, rfl⟩ := h; exact canonicalWord_formatR_of_family (by decide) _ _ n
  | shrVx => obtain ⟨y, rfl⟩ := h; exact canonicalWord_formatR_of_shift (.inl rfl) _ y
  | shlVx => obtain ⟨y, rfl⟩ := h; exact canonicalWord_formatR_of_shift (.inr rfl) _ y
  | ldVxVy | orVxVy | andVxVy | xorVxVy | addVxVy | subVxVy | subnVxVy =>
    cases h; exact canonicalWord_formatR_of_not_shift hc (by decide) (by decide) _ _
  | cls => cases h; exact canonicalWord_of_family fieldOp_cls (by decide)
  | ret => cases h; exact canonicalWord_of_family fieldOp_ret (by decide)
  | jp | call | ldINnn | jpV0Nnn => cases h; exact canonicalWord_of_family (fieldOp_formatA ..) (by decide)
  | drwVxVyN => cases h; exact canonicalWord_of_family (fieldOp_formatR ..) (by decide)
  | seVxKk | sneVxKk | ldVxKk | addVxKk | rndVxKk | skpVx | sknpVx | ldVxDt | ldVxK | ldDtVx | ldStVx | addIVx
  | ldFVx | ldBVx | ldMemVx | ldVxMem =>
    cases h; exact canonicalWord_of_family (fieldOp_formatI ..) (by decide)

/-- Settles O2: a word that decodes to an instruction is one of its words. -/
theorem encodeInvertsDecode : Obligations.EncodeInvertsDecode :=
  fun _ _ _ hc h => encodeWord_eq_canonicalWord hc (decodeWord_ok h)

/-! ### The opcode map (R75, R81) -/

open Sys2Proof.Laws.EncodesInRow in
/-- The word of every instruction is in the instruction's row, which is a row of the map. -/
theorem encodesInRow : ∀ i, Statement i
  | .cls => cls | .ret => ret | .jp _ => jp _ | .call _ => call _ | .seVxKk _ _ => seVxKk _ _
  | .sneVxKk _ _ => sneVxKk _ _ | .seVxVy _ _ => seVxVy _ _ | .ldVxKk _ _ => ldVxKk _ _
  | .addVxKk _ _ => addVxKk _ _ | .ldVxVy _ _ => ldVxVy _ _ | .orVxVy _ _ => orVxVy _ _
  | .andVxVy _ _ => andVxVy _ _ | .xorVxVy _ _ => xorVxVy _ _ | .addVxVy _ _ => addVxVy _ _
  | .subVxVy _ _ => subVxVy _ _ | .shrVx _ => shrVx _ | .subnVxVy _ _ => subnVxVy _ _ | .shlVx _ => shlVx _
  | .sneVxVy _ _ => sneVxVy _ _ | .ldINnn _ => ldINnn _ | .jpV0Nnn _ => jpV0Nnn _ | .rndVxKk _ _ => rndVxKk _ _
  | .drwVxVyN _ _ _ => drwVxVyN _ _ _ | .skpVx _ => skpVx _ | .sknpVx _ => sknpVx _ | .ldVxDt _ => ldVxDt _
  | .ldVxK _ => ldVxK _ | .ldDtVx _ => ldDtVx _ | .ldStVx _ => ldStVx _ | .addIVx _ => addIVx _
  | .ldFVx _ => ldFVx _ | .ldBVx _ => ldBVx _ | .ldMemVx _ => ldMemVx _ | .ldVxMem _ => ldVxMem _

theorem rowOf_mem_opcodeRows (c : Config) (i : Instr) : rowOf c i ∈ opcodeRows c := (encodesInRow i c).2

/-- A word that satisfies a row of the map decodes to an instruction of that row (R74, R75). -/
theorem decodeWord_of_row (hc : c.shlSubopFree = true) {r : Row} (hr : r ∈ opcodeRows c) (h : r.holds w = true) :
    ∃ i, r = rowOf c i ∧ decodeWord c w = .ok i := by
  obtain ⟨i, hri, hw⟩ := words_of_row hr h
  exact ⟨i, hri, decodeWord_words hc hw⟩

/-- The instruction that a word decodes to has a row of the map, and the word satisfies it. -/
theorem row_of_decodeWord (h : decodeWord c w = .ok i) :
    rowOf c i ∈ opcodeRows c ∧ (rowOf c i).holds w = true :=
  ⟨rowOf_mem_opcodeRows c i, row_of_words (decodeWord_ok h)⟩

/-- No word satisfies two rows of the map: both would be the row of what it decodes to. -/
theorem row_unique (hc : c.shlSubopFree = true) {r₁ r₂ : Row} (hr₁ : r₁ ∈ opcodeRows c) (hr₂ : r₂ ∈ opcodeRows c)
    (h₁ : r₁.holds w = true) (h₂ : r₂.holds w = true) : r₁ = r₂ := by
  obtain ⟨i₁, rfl, hd₁⟩ := decodeWord_of_row hc hr₁ h₁
  obtain ⟨i₂, rfl, hd₂⟩ := decodeWord_of_row hc hr₂ h₂
  cases hd₁.symm.trans hd₂
  rfl

/-- A word is illegal exactly when it satisfies no row of the map. -/
theorem decodeWord_error_iff (hc : c.shlSubopFree = true) :
    (∃ e, decodeWord c w = .error e) ↔ ∀ r ∈ opcodeRows c, r.holds w = false := by
  constructor
  · rintro ⟨e, he⟩ r hr
    by_contra hh
    obtain ⟨i, -, hd⟩ := decodeWord_of_row hc hr (Bool.eq_true_of_not_eq_false hh)
    cases he.symm.trans hd
  · intro hnone
    cases hd : decodeWord c w with
    | error e => exact ⟨e, rfl⟩
    | ok i =>
      obtain ⟨hmem, hrow⟩ := row_of_decodeWord hd
      cases (hnone _ hmem).symm.trans hrow

/-- Settles O3: a word satisfies the row of what it decodes to and no other. -/
theorem decoderIsTheOpcodeMap : Obligations.DecoderIsTheOpcodeMap :=
  fun _ hc => ⟨rfl, fun _ => ⟨fun _ => row_of_decodeWord, fun _ hr₁ _ hr₂ => row_unique hc hr₁ hr₂,
    decodeWord_error_iff hc⟩⟩

/-- Settles O7: the eight words, decoded. -/
theorem sampleWordsDecode : Obligations.SampleWordsDecode := by
  unfold Obligations.SampleWordsDecode
  decide

end Sys2Proof
end

section
/-! PROOFS. Jump-with-offset (41_flow.md R109). -/

namespace Sys2Proof.Machine

theorem setPc_keepsAllButPc (s : State) (a : Word) : keepsAllButPc s (s.setPc a) :=
  ⟨fun _ => rfl, rfl, ⟨rfl, fun _ => rfl⟩, ⟨rfl, rfl⟩, fun _ => rfl, fun _ _ => rfl, ⟨rfl, rfl⟩, rfl⟩

/-- The 16-bit sum of jump-with-offset does not wrap (R109): it is at most 0xFFF + 0xFF. -/
theorem toNat_offset (nnn : Addr12) (b : Byte) : (addrOf nnn + wordOf b).toNat = nnn.toNat + b.toNat := by
  rw [BitVec.toNat_add, toNat_addrOf, toNat_wordOf]; omega

/-- Settles O32: the sum cannot wrap, and only `pc` is written. -/
theorem jumpWithOffsetAddsV0 : Obligations.JumpWithOffsetAddsV0 :=
  fun nnn s => ⟨_, rfl, toNat_offset nnn (s.getV 0), toNat_offset_le nnn (s.getV 0), setPc_keepsAllButPc s _⟩

end Sys2Proof.Machine
end

section
/-! PROOFS. Clear-display (40_display.md R90): a blank buffer put into the state, then the advance of `pc`. -/

namespace Sys2Proof.Machine

/-- The state with every pixel unlit and nothing else changed. -/
def State.blanked (s : State) : State := { s with fb := blankScreen }

theorem exec_cls (s : State) : exec .cls s = .next s.blanked.advance := rfl

theorem pixel_blanked (s : State) (r c : Nat) : s.blanked.pixel r c = false := pixelAt_blankScreen r c

/-- Settles O25: the advance keeps the blank buffer, and blanking writes none of the fields that it keeps beside. -/
theorem clearDisplayClearsEveryPixel : Obligations.ClearDisplayClearsEveryPixel := by
  intro s
  obtain ⟨hregs, hindex, hstack, htimers, hmem, hscreen, hkeys, hdraws⟩ :=
    setPc_keepsAllButPc s.blanked (s.pc + 2)
  have hunlit : ∀ r c, s.blanked.advance.pixel r c = false := fun r c =>
    (hscreen r c).trans (pixel_blanked s r c)
  exact ⟨_, exec_cls s, hunlit, rfl, hregs, hindex, hstack, htimers, hmem, hkeys, hdraws⟩

end Sys2Proof.Machine
end

section
/-! PROOFS. How an instruction ends (41_flow.md R100, R101, 60_exceptions.md R151): it completes, with `pc` where the
table of next-pc says, or it raises the one fault of its own; said once for all 34. From it: the table itself, that
every event runs to completion, and that no instruction has two faults. Then what a cycle looks at: the word at `pc`,
and the random byte for random-and-mask alone. -/

namespace Sys2Proof.Machine

/-- The code of the fault that an instruction can raise at its execute stage (R151): none for most. -/
def raisedCode (k : FaultCodes) : Instr → Option Nat
  | .ret => some k.stackUnderflow
  | .call _ => some k.stackOverflow
  | .drwVxVyN _ _ _ | .ldBVx _ | .ldMemVx _ | .ldVxMem _ => some k.memoryOutOfBounds
  | .skpVx _ | .sknpVx _ => some k.keyIndexOutOfRange
  | _ => none

/-- The instruction raised no fault, and where it could be fetched `pc` is what the table gives (R101). -/
def Completes (i : Instr) (s : State) (o : Result) : Prop :=
  ∃ t, o = .next t ∧ t.status = s.status ∧ (s.pc.toNat ≤ 0xFFE → t.pc.toNat = nextPc i s)

/-- The instruction raised a fault, of the one cause that it has. -/
def Raises (i : Instr) (s : State) (o : Result) : Prop :=
  ∃ f, o = raise f s ∧ ∀ k, raisedCode k i = some (f.code k)

variable {c : Config} {rnd : Byte} {i : Instr} {s t : State} {o : Result}

/-! ### The ways to complete -/

/-- An instruction fetched below 0xFFF advances without a wrap (R101). -/
theorem Completes.advance (hst : t.status = s.status) (hpc : t.pc = s.pc) (hi : nextPc i s = s.pc.toNat + 2) :
    Completes i s (.next t.advance) := by
  refine ⟨_, rfl, hst, fun hf => ?_⟩
  rw [hi, State.advance_pc, hpc]
  bv_omega

/-- A skip fetched below 0xFFF moves `pc` by 4 or 2 without a wrap (R101). -/
theorem Completes.skipIf (taken : Bool)
    (hi : nextPc i s = if taken then s.pc.toNat + 4 else s.pc.toNat + 2) :
    Completes i s (.next (s.skipIf taken)) := by
  refine ⟨_, rfl, rfl, fun hf => ?_⟩
  rw [hi]
  cases taken with
  | true => change (s.pc + 4).toNat = s.pc.toNat + 4; bv_omega
  | false => change (s.pc + 2).toNat = s.pc.toNat + 2; bv_omega

/-- A jump moves `pc` to its target. -/
theorem Completes.setPc {w : Word} (hi : w.toNat = nextPc i s) : Completes i s (.next (s.setPc w)) :=
  ⟨_, rfl, rfl, fun _ => hi⟩

/-! ### The instructions with more than one outcome -/

/-- Inside a vector the table's read with a default is the vector's own read. -/
theorem getD_toList {α : Type} {n j : Nat} (v : Vector α n) (d : α) (hj : j < n) : v.toList.getD j d = v[j] := by
  rw [List.getD_eq_getElem _ _ (by simpa using hj), Vector.getElem_toList]

/-- An instruction with a guard completes where the guard holds and raises its fault elsewhere. -/
theorem completes_or_raises_of_guard {p : Prop} [Decidable p] {u : p → State} {f : FaultReport}
    (he : o = if hp : p then .next (u hp) else raise f s) (hu : ∀ hp, Completes i s (.next (u hp)))
    (hf : ∀ k, raisedCode k i = some (f.code k)) : Completes i s o ∨ Raises i s o := by
  by_cases hp : p
  · rw [he, dif_pos hp]; exact .inl (hu hp)
  · rw [he, dif_neg hp]; exact .inr ⟨f, rfl, hf⟩

/-- A store through `I` advances, or is out of bounds (R53). -/
theorem storeAtI_completes_or_raises (bytes : List Byte) (hi : nextPc i s = s.pc.toNat + 2)
    (hf : ∀ k, raisedCode k i = some k.memoryOutOfBounds) :
    Completes i s (storeAtI bytes s) ∨ Raises i s (storeAtI bytes s) :=
  completes_or_raises_of_guard ((storeAtI_eq bytes s).trans dite_eq_ite.symm) (fun _ => .advance rfl rfl hi) hf

/-- A skip on a key moves `pc`, or names no key (R140, R141). -/
theorem skipOnKey_completes_or_raises {x : RegIdx} (wantDown : Bool)
    (hi : nextPc i s = if (s.keys.toList.getD (s.getV x).toNat false == wantDown) = true then s.pc.toNat + 4
      else s.pc.toNat + 2)
    (hf : ∀ k, raisedCode k i = some k.keyIndexOutOfRange) :
    Completes i s (skipOnKey x wantDown s) ∨ Raises i s (skipOnKey x wantDown s) :=
  completes_or_raises_of_guard (skipOnKey_eq x wantDown s)
    (fun hx => .skipIf _ (by rw [hi, getD_toList _ _ hx]; rfl)) hf

/-- The table asks whether a key is down, the instruction whether there is a lowest one (R143). -/
theorem nextPc_ldVxK (x : RegIdx) (s : State) :
    nextPc (.ldVxK x) s = if s.lowestKey.isSome = true then s.pc.toNat + 2 else s.pc.toNat := by
  rw [State.lowestKey, List.findIdx?_isSome]
  rfl

/-- Block-until-key advances where a key is down and stays where none is (R143). -/
theorem execLdVxK_completes (x : RegIdx) (s : State) : Completes (.ldVxK x) s (execLdVxK x s) := by
  cases hk : s.lowestKey with
  | none =>
    rw [execLdVxK_of_none hk]
    exact ⟨_, rfl, rfl, fun _ => by rw [nextPc_ldVxK, hk]; rfl⟩
  | some j =>
    rw [execLdVxK_of_some hk]
    exact .advance rfl rfl (by rw [nextPc_ldVxK, hk]; rfl)

/-! ### All instructions and the cycle -/

/-- How an instruction ends, under any configuration and random byte: it completes, or it raises its fault. -/
theorem execIn_completes_or_raises (c : Config) (rnd : Byte) (i : Instr) (s : State) :
    Completes i s (execIn c rnd i s) ∨ Raises i s (execIn c rnd i s) := by
  cases i with
  | ret =>
    exact completes_or_raises_of_guard (execRet_eq s)
      (fun _ => ⟨_, rfl, rfl, fun _ => congrArg BitVec.toNat (getD_toList s.stack 0 (by omega)).symm⟩)
      (fun _ => rfl)
  | call nnn =>
    exact completes_or_raises_of_guard (execCall_eq nnn s)
      (fun _ => ⟨_, rfl, rfl, fun _ => toNat_addrOf nnn⟩) (fun _ => rfl)
  | drwVxVyN x y n =>
    exact completes_or_raises_of_guard ((execDrwVxVyN_eq x y n s).trans dite_eq_ite.symm)
      (fun _ => .advance rfl rfl rfl) (fun _ => rfl)
  | ldVxMem x =>
    exact completes_or_raises_of_guard ((execLdVxMem_eq x s).trans dite_eq_ite.symm)
      (fun _ => .advance rfl rfl rfl) (fun _ => rfl)
  | ldBVx | ldMemVx => exact storeAtI_completes_or_raises _ rfl (fun _ => rfl)
  | skpVx | sknpVx => exact skipOnKey_completes_or_raises _ rfl (fun _ => rfl)
  | ldVxK x => exact .inl (execLdVxK_completes x s)
  | jp nnn => exact .inl (.setPc (toNat_addrOf nnn))
  | jpV0Nnn nnn => exact .inl (.setPc (toNat_offset nnn _))
  | seVxKk | sneVxKk | seVxVy | sneVxVy => exact .inl (.skipIf _ rfl)
  | cls | ldVxKk | addVxKk | ldVxVy | orVxVy | andVxVy | xorVxVy | addVxVy | subVxVy | shrVx | subnVxVy | shlVx
  | rndVxKk | ldINnn | addIVx | ldFVx | ldVxDt | ldDtVx | ldStVx =>
    exact .inl (.advance rfl rfl rfl)

/-- The fault latched by an instruction of a running core is of the one cause that the instruction has. -/
theorem raisedCode_of_fault (k : FaultCodes) {f : FaultReport} (hs : s.status = .run)
    (h : execIn c rnd i s = .next t) (ht : t.status = .fault f) : raisedCode k i = some (f.code k) := by
  rcases execIn_completes_or_raises c rnd i s with ⟨t', e, hst, -⟩ | ⟨g, e, hcode⟩
  · cases e.symm.trans h
    cases ht.symm.trans (hst.trans hs)
  · cases raise_next (e.symm.trans h)
    cases ht
    exact hcode k

/-- A running core that cannot fetch latches FetchOutOfBounds (R151). -/
theorem cycle_of_fetch_none (hs : s.status = .run) (hf : fetch s = none) :
    cycle c rnd s = raise (.fetchOutOfBounds s.pc) s := by
  rw [cycle_run hs]; simp only [fetchAndExecute, hf]

/-- A running core that fetches a rejected word latches DecodeFailure (R81, R151). -/
theorem cycle_of_decode_error {w : Word} {e : Reject} (hs : s.status = .run) (hf : fetch s = some w)
    (hd : decodeWord c w = .error e) : cycle c rnd s = raise (.decodeFailure s.pc w) s := by
  rw [cycle_run hs]; simp only [fetchAndExecute, hf, decodeAndExecute, hd]

/-- Where no instruction is run, a cycle answers one state, whatever the random byte (R100). -/
theorem cycle_of_nextInstr_none (hn : nextInstr c s = none) : ∃ t, ∀ rnd, cycle c rnd s = .next t := by
  cases hs : s.status with
  | fault f => exact ⟨s, fun _ => cycle_faulted hs⟩
  | run =>
    cases hf : fetch s with
    | none => exact ⟨_, fun _ => cycle_of_fetch_none hs hf⟩
    | some w =>
      cases hd : decodeWord c w with
      | error e => exact ⟨_, fun _ => cycle_of_decode_error hs hf hd⟩
      | ok i => cases hn.symm.trans (nextInstr_some.2 ⟨hs, w, hf, hd⟩)

/-- A cycle answers a next state (R100). -/
theorem cycle_answers (c : Config) (rnd : Byte) (s : State) : ∃ t, cycle c rnd s = .next t := by
  cases hn : nextInstr c s with
  | none => exact (cycle_of_nextInstr_none hn).imp fun _ h => h rnd
  | some i =>
    rw [cycle_of_nextInstr hn]
    rcases execIn_completes_or_raises c rnd i s with ⟨t, e, -⟩ | ⟨f, e, -⟩
    · exact ⟨t, e⟩
    · exact ⟨_, e⟩

/-- Settles O10: an instruction that a running core latches no fault for has completed. -/
theorem nextPcIsTheTable : Obligations.NextPcIsTheTable := by
  intro c rnd s t i hi h ht
  obtain ⟨-, w, hw, -⟩ := nextInstr_some.1 hi
  rw [cycle_of_nextInstr hi] at h
  rcases execIn_completes_or_raises c rnd i s with ⟨t', e, -, hpc⟩ | ⟨f, e, -⟩
  · cases e.symm.trans h
    exact hpc (fetch_some hw)
  · cases raise_next (e.symm.trans h)
    cases ht

/-- Settles O11: STEP is a cycle, which answers; the other four events are functions of the state. -/
theorem everyEventAnswersNext : Obligations.EveryEventAnswersNext := by
  refine fun c e s => ⟨?_, cycle_answers _ _ s⟩
  cases e with
  | step rnd => exact cycle_answers c rnd s
  | reset | load | setKeys | tick => exact ⟨_, rfl⟩

/-- Settles O13: the stages in their order, and the one cause of each instruction. -/
theorem faultPriorityIsFetchDecodeExecute : Obligations.FaultPriorityIsFetchDecodeExecute := by
  refine fun c rnd => ⟨fun s hs hpc => ?_, fun s w e hs hf hd => cycle_of_decode_error hs hf hd, ?_⟩
  · exact cycle_of_fetch_none hs ((fetch_eq s).trans (if_neg (Nat.not_le.2 hpc)))
  · intro i s₁ s₂ t₁ t₂ f₁ f₂ hs₁ hs₂ h₁ h₂ ht₁ ht₂
    have hcode₁ := raisedCode_of_fault Config.defaultFaultCodes hs₁ h₁ ht₁
    have hcode₂ := raisedCode_of_fault Config.defaultFaultCodes hs₂ h₂ ht₂
    exact Option.some.inj (hcode₁.symm.trans hcode₂)

/-! ### What a cycle looks at -/

/-- An instruction other than random-and-mask does not look at the random byte (42_alu.md R122). -/
theorem execIn_rnd_irrelevant (hi : ∀ x kk, i ≠ .rndVxKk x kk) (r₁ r₂ : Byte) :
    execIn c r₁ i s = execIn c r₂ i s := by
  cases i with
  | rndVxKk x kk => exact absurd rfl (hi x kk)
  | _ => rfl

/-- Settles O58: a cycle with no instruction looks at no random byte, one with an instruction where that does. -/
theorem onlyRandomAndMaskReadsTheRandomByte : Obligations.OnlyRandomAndMaskReadsTheRandomByte := by
  intro c r₁ r₂ s hno
  cases hn : nextInstr c s with
  | none =>
    obtain ⟨t, ht⟩ := cycle_of_nextInstr_none hn
    rw [ht r₁, ht r₂]
  | some i =>
    rw [cycle_of_nextInstr hn, cycle_of_nextInstr hn]
    exact execIn_rnd_irrelevant (fun x kk e => hno x kk (e ▸ hn)) r₁ r₂

/-- Settles O9: the word at `pc` is the one that is fetched. -/
theorem stepRunsTheDecodedInstruction : Obligations.StepRunsTheDecodedInstruction :=
  fun s _ hs hpc hd => step_of_fetch hs ((fetch_eq s).trans (if_pos hpc)) hd

end Sys2Proof.Machine
end

section
/-! PROOFS. Return, jump and the skips on register values (41_flow.md R102 to R108), and the finished program, a jump
to itself (70_reset_and_hazards.md R173). -/

namespace Sys2Proof.Machine

/-- Return with `k + 1` saved addresses (R102): the last of them is the new `pc`. -/
theorem execRet_of_saved {s : State} {k : Fin 16} (hk : s.sp.val = k.val + 1) :
    execRet s = .next { s with pc := s.stack[k.val], sp := k.castSucc } := by
  have hlast : s.sp.val - 1 = k.val := by omega
  rw [execRet_eq, dif_pos (by omega)]
  simp only [hlast]
  rfl

/-- Settles O30: what runs in between keeps the entry that the call saved and the depth it left. -/
theorem callThenReturnComesBack : Obligations.CallThenReturnComesBack := by
  intro nnn s t t₂ hs h hkeep
  have hfree : s.sp.val < 16 := Nat.lt_of_le_of_ne (Nat.le_of_lt_succ s.sp.isLt) fun e => hs (Fin.ext e)
  obtain ⟨hsp, hstack⟩ := hkeep
  obtain ⟨t', e, hsaved, -, hdepth, -⟩ := (callPushesTheReturnAddress nnn s).2 ⟨s.sp.val, hfree⟩ rfl
  cases h.symm.trans e
  rw [← hsp] at hdepth
  exact ⟨_, execRet_of_saved hdepth, (hstack _).trans hsaved, rfl⟩

/-- Settles O31: the target as it stands in the instruction, and only `pc` is written. -/
theorem jumpSetsThePc : Obligations.JumpSetsThePc :=
  fun nnn s => ⟨_, rfl, toNat_addrOf nnn, setPc_keepsAllButPc s _⟩

/-- A skip writes `pc` alone: by 4 where its condition holds, by 2 where the opposite does (R101). -/
theorem skipIf_answers (s : State) {taken : Bool} {p q : Prop} (hp : p → taken = true) (hq : q → taken = false) :
    ∃ t, (.next (s.skipIf taken) : Result) = .next t ∧ keepsAllButPc s t ∧
      (p → t.pc = s.pc + 4) ∧ (q → t.pc = s.pc + 2) :=
  ⟨_, rfl, skipIf_keepsAllButPc s taken, fun h => by simp [hp h], fun h => by simp [hq h]⟩

/-- Settles O33: each of the four is a skip on an equation or on its negation. -/
theorem skipsOnRegisters : Obligations.SkipsOnRegisters :=
  fun _ _ _ s =>
    ⟨skipIf_answers s beq_iff_eq.2 beq_eq_false_iff_ne.2, skipIf_answers s bne_iff_ne.2 bne_eq_false_iff_eq.2,
      skipIf_answers s beq_iff_eq.2 beq_eq_false_iff_ne.2, skipIf_answers s bne_iff_ne.2 bne_eq_false_iff_eq.2⟩

/-- A tick does not change what the next step runs (60_exceptions.md R159). -/
theorem nextInstr_tick (c : Config) (s : State) : nextInstr c (tick s) = nextInstr c s := by
  rcases tick_cases s with ⟨-, e⟩ | ⟨-, e⟩
  · rw [e]; rfl
  · rw [e]

/-- Settles O56: the jump writes into `pc` what it holds, and a tick leaves `pc` and the instruction alone. -/
theorem finishedProgramsStay : Obligations.FinishedProgramsStay := by
  rintro c rnd s ⟨nnn, hi, hpc⟩
  obtain ⟨hs, -⟩ := nextInstr_some.1 hi
  have hjump : execIn c rnd (.jp nnn) s = .next (s.setPc s.pc) := by rw [← hpc]; rfl
  exact ⟨(cycle_of_nextInstr hi).trans hjump, hs, nnn, (nextInstr_tick c s).trans hi, hpc.trans (tick_pc s).symm⟩

end Sys2Proof.Machine
end

section
/-! PROOFS. Register arithmetic and logic (42_alu.md R110 to R123): each instruction writes a result to `V[x]`, or a
result and then a flag, and advances. What such a write leaves and keeps is said once, in `setV_answers` and
`setFlagged_answers`; what is left for each instruction is the arithmetic of its result and of its flag. -/

namespace Sys2Proof.Machine

/-! ### Writes to the registers before the advance -/

/-- Whatever the registers become, only they and `pc` change. -/
theorem wroteRegs_keepsAllButRegs (s : State) (v : Vector Byte 16) :
    keepsAllButRegs s ({ s with v := v } : State).advance :=
  ⟨rfl, ⟨rfl, fun _ => rfl⟩, ⟨rfl, rfl⟩, fun _ => rfl, fun _ _ => rfl, ⟨rfl, rfl⟩, rfl⟩

theorem setV_keepsRegsBut (s : State) (x : RegIdx) (b : Byte) : keepsRegsBut [x] s (s.setV x b) :=
  fun _ hr => State.getV_setV_ne s b (List.ne_of_not_mem_cons hr)

/-- A result written to `V[x]`: whatever follows from `V[x]` being the result holds, and the rest is kept (R111 to
R116). -/
theorem setV_answers (s : State) {x : RegIdx} {b : Byte} {p : State → Prop} (hp : ∀ t, t.getV x = b → p t) :
    ∃ t, (.next (s.setV x b).advance : Result) = .next t ∧ p t ∧ t.pc = s.pc + 2 ∧
      keepsRegsBut [x] s t ∧ keepsAllButRegs s t :=
  ⟨_, rfl, hp _ (State.getV_setV_same s x b), rfl, setV_keepsRegsBut s x b, wroteRegs_keepsAllButRegs s _⟩

theorem setFlagged_keepsRegsBut (s : State) (x : RegIdx) (b : Byte) (f : Bool) :
    keepsRegsBut [x, flagReg] s (s.setFlagged x b f) := by
  intro r hr
  obtain ⟨hx, hf⟩ : r ≠ x ∧ r ≠ flagReg := by simpa using hr
  rw [State.getV_setFlagged, if_neg hf, if_neg hx]

/-- A result written to `V[x]` and then a flag to `VF`: the result remains where `x` is another register, the flag
always (R110, decision D8). -/
theorem setFlagged_answers (s : State) {x : RegIdx} {b : Byte} {f : Bool} {p : State → Prop} {n : Nat}
    (hp : ∀ t, t.getV x = b → p t) (hf : (flagByte f).toNat = n) :
    ∃ t, (.next (s.setFlagged x b f).advance : Result) = .next t ∧ (x ≠ flagReg → p t) ∧
      (t.getV flagReg).toNat = n ∧ t.pc = s.pc + 2 ∧ keepsRegsBut [x, flagReg] s t ∧ keepsAllButRegs s t := by
  refine ⟨_, rfl, fun hx => hp _ ?_, ?_, rfl, setFlagged_keepsRegsBut s x b f, wroteRegs_keepsAllButRegs s _⟩
  · rw [State.getV_advance, State.getV_setFlagged, if_neg hx, if_pos rfl]
  · rw [State.getV_advance, State.getV_setFlagged, if_pos rfl, hf]

/-! ### Results and flags over the integers -/

theorem toNat_carryOut (a b : Byte) :
    (flagByte (carryOut a b)).toNat = if a.toNat + b.toNat > 255 then 1 else 0 := by
  rw [toNat_flagByte]
  exact if_congr (carryOut_iff a b) rfl rfl

theorem toNat_notBorrow (a b : Byte) : (flagByte (notBorrow a b)).toNat = if a.toNat > b.toNat then 1 else 0 := by
  rw [toNat_flagByte]
  exact if_congr (notBorrow_iff a b) rfl rfl

/-- The difference of two bytes is their integer difference modulo 256, negative or not (R118, R123). -/
theorem toNat_sub_byte (a b : Byte) : ((a - b).toNat : Int) = (a.toNat - b.toNat : Int) % 256 := by
  rw [BitVec.toNat_sub]
  omega

/-- A logical shift right by one halves (R119). -/
theorem toNat_shiftRight_one (a : Byte) : (a >>> 1).toNat = a.toNat / 2 := by
  rw [BitVec.toNat_ushiftRight, Nat.shiftRight_one]

/-- A shift left by one doubles modulo 256 (R121). -/
theorem toNat_shiftLeft_one (a : Byte) : (a <<< 1).toNat = a.toNat * 2 % 256 := by
  rw [BitVec.toNat_shiftLeft, Nat.shiftLeft_eq]

/-! ### The instructions -/

/-- Settles O34: one register written with the byte or the sum, and no flag. -/
theorem immediateForms : Obligations.ImmediateForms :=
  fun x kk s =>
    ⟨setV_answers s fun _ h => h, setV_answers s fun _ h => by rw [h]; exact BitVec.toNat_add (s.getV x) kk⟩

/-- Settles O35: one register written with `V[y]` or with the bits of an operation on both. -/
theorem assignAndLogic : Obligations.AssignAndLogic :=
  fun _ _ s =>
    ⟨setV_answers s fun _ h => h, setV_answers s fun _ h _ => by rw [h, BitVec.getLsbD_or],
      setV_answers s fun _ h _ => by rw [h, BitVec.getLsbD_and],
      setV_answers s fun _ h _ => by rw [h, BitVec.getLsbD_xor]⟩

/-- Settles O36: the sum of the old values, then its carry. -/
theorem addWithCarry : Obligations.AddWithCarry :=
  fun x y s =>
    setFlagged_answers s (fun _ h => by rw [h]; exact BitVec.toNat_add (s.getV x) (s.getV y)) (toNat_carryOut _ _)

/-- Settles O37: the difference of the old values in either order, then the strict comparison. -/
theorem subtractWithNotBorrow : Obligations.SubtractWithNotBorrow :=
  fun _ _ s =>
    ⟨setFlagged_answers s (fun _ h => by rw [h, toNat_sub_byte]) (toNat_notBorrow _ _),
      setFlagged_answers s (fun _ h => by rw [h, toNat_sub_byte]) (toNat_notBorrow _ _)⟩

/-- Settles O38: the shifted old value, then the low bit, or for shift-left the bit of the configuration, which is the
low one by default. -/
theorem shiftsByOne : Obligations.ShiftsByOne :=
  fun _ s =>
    ⟨setFlagged_answers s (fun _ h => by rw [h, toNat_shiftRight_one]) (toNat_shrFlag _),
      setFlagged_answers s (fun _ h => by rw [h, toNat_shiftLeft_one]) (toNat_shlFlag .low _),
      fun c _ => setFlagged_answers s (fun _ h => by rw [h, toNat_shiftLeft_one]) (toNat_shlFlag c.shlFlagBit _)⟩

/-- Random-and-mask writes one register and counts its draw (R122, log entry 1). -/
theorem randomAndMask_answers (rnd : Byte) (x : RegIdx) (kk : Byte) (s : State) :
    ∃ t, randomAndMask rnd x kk s = .next t ∧ t.getV x = rnd &&& kk ∧ t.pc = s.pc + 2 ∧
      keepsRegsBut [x] s t ∧ keepsIndex s t ∧ keepsStack s t ∧ keepsTimers s t ∧ keepsMem s t ∧
      keepsScreen s t ∧ keepsKeysStatus s t := by
  obtain ⟨hindex, hstack, htimers, hmem, hscreen, hkeys, -⟩ :=
    wroteRegs_keepsAllButRegs s (s.setV x (rnd &&& kk)).v
  exact ⟨_, rfl, State.getV_setV_same s x _, rfl, setV_keepsRegsBut s x _, hindex, hstack, htimers, hmem, hscreen,
    hkeys⟩

/-- Settles O40: the byte of the cycle masked by `kk`; `exec` does the same with the free byte of the draw. -/
theorem randomAndMaskForEveryByte : Obligations.RandomAndMaskForEveryByte := by
  refine fun x kk s => ⟨fun _ rnd => ?_, Config.rndByte s.draws, ?_⟩
  · obtain ⟨t, e, hx, hframe⟩ := randomAndMask_answers rnd x kk s
    exact ⟨t, e, fun b => by rw [hx, BitVec.getLsbD_and], hframe⟩
  · obtain ⟨t, e, hx, hframe⟩ := randomAndMask_answers (Config.rndByte s.draws) x kk s
    exact ⟨t, e, hx, fun b hb => by rw [hx, BitVec.getLsbD_and, hb, Bool.and_false], hframe⟩

end Sys2Proof.Machine
end

section
/-! PROOFS. The address register (43_index_memory.md R130, R131), and load-registers on both sides of its bounds check
(R135): what each register holds after it, and after a store of the same registers. -/

namespace Sys2Proof.Machine

/-! ### The address register -/

theorem setI_keepsAllButMem (s : State) (w : Word) : keepsAllButMem { s with i := w } (s.setI w).advance :=
  ⟨fun _ => rfl, rfl, ⟨rfl, fun _ => rfl⟩, ⟨rfl, rfl⟩, fun _ _ => rfl, ⟨rfl, rfl⟩, rfl⟩

/-- An address of value `n` written to `I`: the rest is kept, memory and `VF` included (R130 to R132). -/
theorem setI_answers (s : State) {w : Word} {n : Nat} (hw : w.toNat = n) :
    ∃ t, (.next (s.setI w).advance : Result) = .next t ∧ t.i.toNat = n ∧ t.pc = s.pc + 2 ∧
      keepsAllButMem { s with i := t.i } t ∧ keepsMem s t :=
  ⟨_, rfl, hw, rfl, setI_keepsAllButMem s w, fun _ => rfl⟩

/-- The sum of add-to-address-register wraps modulo 65536 (R131). -/
theorem toNat_add_wordOf (w : Word) (b : Byte) : (w + wordOf b).toNat = (w.toNat + b.toNat) % 65536 := by
  rw [BitVec.toNat_add, toNat_wordOf]

/-- Settles O41: the address as it stands in the instruction, and the wrapped sum. -/
theorem writersOfTheAddressRegister : Obligations.WritersOfTheAddressRegister :=
  fun nnn _ s => ⟨setI_answers s (toNat_addrOf nnn), setI_answers s (toNat_add_wordOf s.i _)⟩

/-! ### Load-registers -/

/-- The state after a load of `V[0]` to `V[x]` that is in bounds (R135). -/
def State.regsLoaded (s : State) (x : RegIdx) : State :=
  ({ s with v := setRegsFrom s.v 0 (readBytes s.mem s.i.toNat (rangeSize x)) } : State).advance

variable {s : State} {x r : RegIdx}

theorem execLdVxMem_of_inBounds (h : ¬accessOutOfBounds s (rangeSize x)) :
    execLdVxMem x s = .next (s.regsLoaded x) := by
  rw [accessOutOfBounds_iff, not_not] at h
  exact (execLdVxMem_eq x s).trans (if_pos h)

theorem execLdVxMem_of_outOfBounds (h : accessOutOfBounds s (rangeSize x)) :
    execLdVxMem x s = .next { s with status := .fault (.memoryOutOfBounds s.pc s.i (rangeSize x)) } := by
  rw [accessOutOfBounds_iff] at h
  exact (execLdVxMem_eq x s).trans (if_neg h)

/-- A register up to `x` holds the byte at its place from `I` (R135). -/
theorem getV_regsLoaded_of_le (hr : r ≤ x) :
    (s.regsLoaded x).getV r = readByte s.mem (s.i.toNat + r.val) := by
  have hlen : r.val - 0 < (readBytes s.mem s.i.toNat (rangeSize x)).length := by
    rw [length_readBytes]; exact Nat.lt_succ_of_le hr
  calc (s.regsLoaded x).getV r
      = (readBytes s.mem s.i.toNat (rangeSize x))[r.val - 0] :=
        (getElem_setRegsFrom _ s.v 0 r.val r.isLt).trans (dif_pos ⟨Nat.zero_le _, hlen⟩)
    _ = readByte s.mem (s.i.toNat + r.val) := getElem_readBytes s.mem _ _ _ hlen

/-- A register above `x` is not loaded (R135). -/
theorem getV_regsLoaded_of_lt (hr : x < r) : (s.regsLoaded x).getV r = s.getV r := by
  refine (getElem_setRegsFrom _ s.v 0 r.val r.isLt).trans (dif_neg fun ⟨_, hlen⟩ => ?_)
  rw [length_readBytes] at hlen
  exact Nat.not_lt_of_le hr hlen

/-- Settles O45: the two sides of the bounds check, and the two kinds of register after the load. -/
theorem loadRegistersThroughX : Obligations.LoadRegistersThroughX :=
  fun _ s => ⟨execLdVxMem_of_outOfBounds, fun h =>
    ⟨_, execLdVxMem_of_inBounds h, fun _ => getV_regsLoaded_of_le, fun _ => getV_regsLoaded_of_lt, rfl,
      wroteRegs_keepsAllButRegs s _⟩⟩

/-- Settles O46: the load reads each register's byte where the store left it, in bounds since `I` is the same. -/
theorem storeThenLoadGivesTheRegistersBack : Obligations.StoreThenLoadGivesTheRegistersBack := by
  intro x s t t₂ hb h hi hmem
  cases (storeAtI_of_inBounds (length_regsThrough s x) hb).symm.trans h
  have hb₂ : ¬accessOutOfBounds t₂ (rangeSize x) := by rw [accessOutOfBounds, hi]; exact hb
  refine ⟨_, execLdVxMem_of_inBounds hb₂, fun r hr => ?_⟩
  calc (t₂.regsLoaded x).getV r
      = readByte t₂.mem (t₂.i.toNat + r.val) := getV_regsLoaded_of_le hr
    _ = readByte (s.stored (s.regsThrough x)).mem (s.i.toNat + r.val) := by rw [hi, hmem]
    _ = s.getV r := readByte_stored_regsThrough s hr

end Sys2Proof.Machine
end

section
/-! PROOFS. The delay timer read and both timers set (44_keypad_timers.md R142, R144, R145). -/

namespace Sys2Proof.Machine

/-- The sound signal is on exactly while the sound timer is not 0 (R162). -/
theorem State.soundOn_iff (s : State) : s.soundOn = true ↔ s.st ≠ 0 :=
  decide_eq_true_iff.trans (Nat.pos_iff_ne_zero.trans (BitVec.toNat_ne_iff_ne (y := 0)))

/-- Settles O50: one register written with the delay timer, or one timer written with the register. -/
theorem timerInstructions : Obligations.TimerInstructions :=
  fun x s =>
    ⟨setV_answers s fun _ h => h,
      ⟨_, rfl, rfl, rfl, rfl, setPc_keepsAllButPc { s with dt := s.getV x } (s.pc + 2)⟩,
      ⟨_, rfl, rfl, rfl, rfl, State.soundOn_iff _, setPc_keepsAllButPc { s with st := s.getV x } (s.pc + 2)⟩⟩

end Sys2Proof.Machine
end

section
/-! PROOFS. Which words are illegal (30_encoding.md R76 to R81) and which nibbles are not examined (R80). The decoder is
a chain of tests in every family, so a word is rejected where it fails each test. -/

namespace Sys2Proof

open Sys2Proof.Machine

variable {c : Config} {w : Word}

/-! ### Rejected words (R76 to R81) -/

/-- The decoder answers a rejection, of whatever class. -/
def Rejected (d : Except Reject Instr) : Prop := ∃ e, d = .error e

@[simp] theorem rejected_error (e : Reject) : Rejected (.error e) := ⟨e, rfl⟩

@[simp] theorem not_rejected_ok (i : Instr) : ¬Rejected (.ok i) := nofun

/-- A test that accepts is passed over exactly where it fails. -/
@[simp] theorem rejected_test {p : Prop} [Decidable p] {i : Instr} {d : Except Reject Instr} :
    Rejected (if p then .ok i else d) ↔ ¬p ∧ Rejected d := by
  by_cases hp : p <;> simp [hp]

theorem accepted_iff (d : Except Reject Instr) : (∃ i, d = .ok i) ↔ ¬Rejected d := by
  cases d with
  | ok i => simp
  | error e => simp

/-- Family 0 rejects all but two words (R76). -/
theorem rejected_decodeFamily0 : Rejected (decodeFamily0 w) ↔ w ≠ 0x00E0 ∧ w ≠ 0x00EE := by
  simp [decodeFamily0]

/-- Family 8 rejects the sub-opcodes from 8 up that are not shift-left's (R77). -/
theorem rejected_decodeFamily8 {x y : RegIdx} {n : Nibble} :
    Rejected (decodeFamily8 c x y n) ↔ 8 ≤ n.toNat ∧ n ≠ c.shlSubop := by
  have hlow : 8 ≤ n.toNat ↔ n ≠ 0 ∧ n ≠ 1 ∧ n ≠ 2 ∧ n ≠ 3 ∧ n ≠ 4 ∧ n ≠ 5 ∧ n ≠ 6 ∧ n ≠ 7 := by
    revert n; decide
  simp [decodeFamily8, hlow, and_assoc]

/-- Family 0xE rejects all but two values of `kk` (R78). -/
theorem rejected_decodeFamilyE {x : RegIdx} {kk : Byte} :
    Rejected (decodeFamilyE x kk) ↔ kk ≠ 0x9E ∧ kk ≠ 0xA1 := by
  simp [decodeFamilyE]

/-- Family 0xF rejects all but nine values of `kk` (R79). -/
theorem rejected_decodeFamilyF {x : RegIdx} {kk : Byte} :
    Rejected (decodeFamilyF x kk) ↔
      kk ∉ ([0x07, 0x0A, 0x15, 0x18, 0x1E, 0x29, 0x33, 0x55, 0x65] : List Byte) := by
  simp [decodeFamilyF]

/-- The illegal words, under every configuration: four families have a second selector, the others reject nothing
(R81). -/
theorem rejected_decodeWord : Rejected (decodeWord c w) ↔
    (fieldOp w = 0x0 ∧ w ≠ 0x00E0 ∧ w ≠ 0x00EE) ∨
    (fieldOp w = 0x8 ∧ 8 ≤ (fieldN w).toNat ∧ fieldN w ≠ c.shlSubop) ∨
    (fieldOp w = 0xE ∧ fieldKk w ≠ 0x9E ∧ fieldKk w ≠ 0xA1) ∨
    (fieldOp w = 0xF ∧ fieldKk w ∉ ([0x07, 0x0A, 0x15, 0x18, 0x1E, 0x29, 0x33, 0x55, 0x65] : List Byte)) := by
  rw [← rejected_decodeFamily0, ← rejected_decodeFamily8 (x := regOf (fieldX w)) (y := regOf (fieldY w)),
    ← rejected_decodeFamilyE (x := regOf (fieldX w)), ← rejected_decodeFamilyF (x := regOf (fieldX w))]
  rcases nibble_cases (fieldOp w) with
      e | e | e | e | e | e | e | e | e | e | e | e | e | e | e | e <;> simp [decodeWord, e]

/-- Settles O4: the four classes with 8 for the sub-opcode of shift-left; the step raises before it executes. -/
theorem illegalWordsAreExactlyFourClasses : Obligations.IllegalWordsAreExactlyFourClasses := by
  refine fun w => ⟨?_, fun s e hs hf hd => cycle_of_decode_error hs hf hd⟩
  have hnine : ∀ n : Nibble, 8 ≤ n.toNat ∧ n ≠ Config.default.shlSubop ↔ 9 ≤ n.toNat := by decide
  rw [← hnine]
  exact rejected_decodeWord

/-- Settles O6: family 8 at the two sub-opcodes that differ. -/
theorem shiftLeftSubopIsTheParameter : Obligations.ShiftLeftSubopIsTheParameter := by
  refine fun c x y => ⟨fun h => ?_, fun h => ?_⟩
  · simp [decodeWord, decodeFamily8, h]
  · simp [decodeWord, decodeFamily8, h]

/-! ### Unexamined nibbles (R80) -/

/-- In families 0xE and 0xF the register does not decide whether a word is legal (R78, R79). -/
theorem rejected_formatI_register {op : Nibble} (hop : op = 0xE ∨ op = 0xF) (x x' : RegIdx) (kk : Byte) :
    Rejected (decodeWord c (formatI op x kk)) ↔ Rejected (decodeWord c (formatI op x' kk)) := by
  rcases hop with rfl | rfl <;> simp [rejected_decodeWord]

/-- Settles O5: the words of an instruction have any nibble where none is examined, the encoder's has 0. -/
theorem unexaminedNibblesDoNotMatter : Obligations.UnexaminedNibblesDoNotMatter := by
  refine fun c x y f hc => ⟨decodeWord_words hc ⟨f, rfl⟩, decodeWord_words hc ⟨f, rfl⟩, decodeWord_words hc ⟨f, rfl⟩,
    decodeWord_words hc ⟨f, rfl⟩, fun kk x' i hi => ?_, fieldN_formatR .., fieldN_formatR .., fieldY_formatR ..,
    fieldY_formatR ..⟩
  rw [accepted_iff, accepted_iff, rejected_formatI_register hi x x' kk]

end Sys2Proof
end

section
/-! PROOFS. When a fault is raised (60_exceptions.md R151, R153, R154): a condition of the table makes the cycle latch
its report, and a latched report had its condition; so a fault is precise. Then what a faulted core ignores. -/

namespace Sys2Proof.Machine

variable {c : Config} {rnd : Byte} {i : Instr} {s t : State} {f : FaultReport}

/-! ### From the condition to the fault -/

/-- An access of memory that is out of bounds is the fault, for each of the four instructions with one (R53). -/
theorem execIn_of_outOfBounds {n : Nat} (hi : accessSize i = some n) (h : accessOutOfBounds s n) :
    execIn c rnd i s = .next { s with status := .fault (.memoryOutOfBounds s.pc s.i n) } := by
  cases i with
  | drwVxVyN => cases hi; exact exec_drw_of_outOfBounds h
  | ldBVx x => cases hi; exact storeAtI_of_outOfBounds (length_bcdDigits _) h
  | ldMemVx x => cases hi; exact storeAtI_of_outOfBounds (length_regsThrough s x) h
  | ldVxMem => cases hi; exact execLdVxMem_of_outOfBounds h
  | _ => cases hi

/-- Return on an empty stack is the fault (R102). -/
theorem execRet_of_empty (h : s.sp = 0) :
    execRet s = .next { s with status := .fault (.stackUnderflow s.pc) } :=
  (execRet_eq s).trans (dif_neg (by simp [h]))

/-- Each row of the table makes the cycle of a running core latch the row's report and change nothing else (R151,
R153). -/
theorem cycle_of_faultCondition (hs : s.status = .run) (hf : faultCondition c s f) :
    cycle c rnd s = .next { s with status := .fault f } := by
  cases f with
  | fetchOutOfBounds p =>
    obtain ⟨rfl, hpc⟩ := hf
    exact cycle_of_fetch_none hs ((fetch_eq s).trans (if_neg (Nat.not_le.2 hpc)))
  | decodeFailure p w =>
    obtain ⟨rfl, hw, hrows⟩ := hf
    cases hd : decodeWord c w with
    | error e => exact cycle_of_decode_error hs hw hd
    | ok i =>
      obtain ⟨hmem, hholds⟩ := row_of_decodeWord hd
      cases (hrows _ hmem).symm.trans hholds
  | memoryOutOfBounds p a n =>
    obtain ⟨rfl, rfl, hpos, hend, j, hj, hsize⟩ := hf
    exact (cycle_of_nextInstr hj).trans (execIn_of_outOfBounds hsize ⟨hpos, hend⟩)
  | stackOverflow p =>
    obtain ⟨rfl, hsp, nnn, hj⟩ := hf
    exact (cycle_of_nextInstr hj).trans ((callPushesTheReturnAddress nnn s).1 hsp)
  | stackUnderflow p =>
    obtain ⟨rfl, hsp, hj⟩ := hf
    exact (cycle_of_nextInstr hj).trans (execRet_of_empty hsp)
  | keyIndexOutOfRange p k =>
    obtain ⟨rfl, hk, x, rfl, hj | hj⟩ := hf
    · exact (cycle_of_nextInstr hj).trans (skipOnKey_of_noKey true hk)
    · exact (cycle_of_nextInstr hj).trans (skipOnKey_of_noKey false hk)

/-! ### From the fault to the condition -/

/-- An instruction with a guard raises its fault only where the guard fails. -/
theorem faultCondition_of_guard {o : Result} {p : Prop} [Decidable p] {u : p → State} {g : FaultReport}
    (he : o = if hp : p then .next (u hp) else raise g s) (hu : ∀ hp, (u hp).status = s.status)
    (hg : ¬p → faultCondition c s g) (hs : s.status = .run) (h : o = .next t) (ht : t.status = .fault f) :
    faultCondition c s f := by
  by_cases hp : p
  · rw [dif_pos hp] at he
    cases he.symm.trans h
    cases ht.symm.trans ((hu hp).trans hs)
  · rw [dif_neg hp] at he
    cases raise_next (he.symm.trans h)
    cases ht
    exact hg hp

/-- The bounds check that fails is the condition of MemoryOutOfBounds (R53, R151). -/
theorem faultCondition_of_not_inBounds {n : Nat} (hi : nextInstr c s = some i) (hn : accessSize i = some n)
    (h : ¬(n = 0 ∨ s.i.toNat + n ≤ memSize)) : faultCondition c s (.memoryOutOfBounds s.pc s.i n) := by
  obtain ⟨hpos, hend⟩ := (accessOutOfBounds_iff s n).2 h
  exact ⟨rfl, rfl, hpos, hend, i, hi, hn⟩

/-- A fault latched by the next instruction of a running core had the condition of its row (R151). -/
theorem faultCondition_of_execIn (hi : nextInstr c s = some i) (h : execIn c rnd i s = .next t)
    (ht : t.status = .fault f) : faultCondition c s f := by
  obtain ⟨hs, -⟩ := nextInstr_some.1 hi
  cases i with
  | ret =>
    refine faultCondition_of_guard (execRet_eq s) (fun _ => rfl) (fun hsp => ⟨rfl, ?_, hi⟩) hs h ht
    exact Fin.ext (Nat.eq_zero_of_not_pos hsp)
  | call nnn =>
    refine faultCondition_of_guard (execCall_eq nnn s) (fun _ => rfl) (fun hsp => ⟨rfl, ?_, nnn, hi⟩) hs h ht
    exact Fin.ext (Nat.le_antisymm (Nat.le_of_lt_succ s.sp.isLt) (Nat.not_lt.1 hsp))
  | drwVxVyN x y n =>
    exact faultCondition_of_guard ((execDrwVxVyN_eq x y n s).trans dite_eq_ite.symm) (fun _ => rfl)
      (faultCondition_of_not_inBounds hi rfl) hs h ht
  | ldVxMem x =>
    exact faultCondition_of_guard ((execLdVxMem_eq x s).trans dite_eq_ite.symm) (fun _ => rfl)
      (faultCondition_of_not_inBounds hi rfl) hs h ht
  | ldBVx x =>
    exact faultCondition_of_guard ((storeAtI_eq _ s).trans dite_eq_ite.symm) (fun _ => rfl)
      (faultCondition_of_not_inBounds hi rfl) hs h ht
  | ldMemVx x =>
    exact faultCondition_of_guard ((storeAtI_eq _ s).trans dite_eq_ite.symm) (fun _ => rfl)
      (faultCondition_of_not_inBounds hi (congrArg some (length_regsThrough s x).symm)) hs h ht
  | skpVx x =>
    exact faultCondition_of_guard (skipOnKey_eq x true s) (fun _ => rfl)
      (fun hx => ⟨rfl, Nat.not_lt.1 hx, x, rfl, .inl hi⟩) hs h ht
  | sknpVx x =>
    exact faultCondition_of_guard (skipOnKey_eq x false s) (fun _ => rfl)
      (fun hx => ⟨rfl, Nat.not_lt.1 hx, x, rfl, .inr hi⟩) hs h ht
  | _ => cases raisedCode_of_fault Config.defaultFaultCodes hs h ht

/-- A running core latches a report exactly under the condition of its row (R151). -/
theorem cycle_fault_iff (hc : c.shlSubopFree = true) (hs : s.status = .run) (h : cycle c rnd s = .next t) :
    t.status = .fault f ↔ faultCondition c s f := by
  constructor
  · intro ht
    rcases cycle_cases h with ⟨g, hg, -⟩ | ⟨-, hpc, rfl⟩ | ⟨-, w, e, hw, hd, rfl⟩ | ⟨i, hi, hx⟩
    · cases hs.symm.trans hg
    · cases ht; exact ⟨rfl, hpc⟩
    · cases ht; exact ⟨rfl, hw, (decodeWord_error_iff hc).1 ⟨e, hd⟩⟩
    · exact faultCondition_of_execIn hi hx ht
  · intro hf
    cases h.symm.trans (cycle_of_faultCondition hs hf)
    rfl

/-- Settles O12: both directions between a latched report and its condition; the codes are the table's numbers. -/
theorem faultsAreExactlyTheTable : Obligations.FaultsAreExactlyTheTable :=
  ⟨fun _ _ _ _ _ hc hs h => cycle_fault_iff hc hs h, fun _ _ _ _ => ⟨rfl, rfl, rfl, rfl, rfl, rfl⟩⟩

/-! ### Precision and quiescence -/

/-- The report of every row names the address of the instruction (R151). -/
theorem faultCondition_pc0 (h : faultCondition c s f) : f.pc0 = s.pc := by
  cases f <;> exact And.left h

/-- A cycle that leaves a running core not running has latched a report with the instruction's address and done
nothing else (R153). -/
theorem cycle_fault_precise (hs : s.status = .run) (h : cycle c rnd s = .next t) (ht : t.status ≠ .run) :
    ∃ f : FaultReport, t = { s with status := .fault f } ∧ f.pc0 = s.pc := by
  rcases cycle_cases h with ⟨g, hg, -⟩ | ⟨-, -, e⟩ | ⟨-, w, -, -, -, e⟩ | ⟨i, hi, hx⟩
  · cases hs.symm.trans hg
  · exact ⟨_, e, rfl⟩
  · exact ⟨_, e, rfl⟩
  · cases hst : t.status with
    | run => exact absurd hst ht
    | fault f =>
      have hf := faultCondition_of_execIn hi hx hst
      cases h.symm.trans (cycle_of_faultCondition hs hf)
      exact ⟨f, rfl, faultCondition_pc0 hf⟩

theorem tick_faulted (h : s.status ≠ .run) : tick s = s :=
  (tick_cases s).elim (fun h' => absurd h'.1 h) And.right

theorem load_faulted (bytes : List Byte) (h : s.status ≠ .run) : load bytes s = s :=
  ((loadWritesTheProgram bytes s).2.2 h).2

/-- Settles O14: the one report of a faulting cycle; then each event but RESET looks at the latch first. -/
theorem faultsArePreciseAndQuiescent : Obligations.FaultsArePreciseAndQuiescent := by
  refine ⟨fun c rnd s t hs h ht => cycle_fault_precise hs h ht, fun c s f hf => ?_⟩
  have hne : s.status ≠ .run := by rw [hf]; nofun
  exact ⟨fun _ => cycle_faulted hf, tick_faulted hne, fun bytes => load_faulted bytes hne,
    fun k => setKeys_faulted k hne⟩

/-- Every event but RESET leaves a faulted core as it is (R153, R154). -/
theorem apply_faulted {e : Event} (hf : s.status = .fault f) (he : e ≠ .reset) : apply c e s = .next s := by
  obtain ⟨hcycle, htick, hload, hkeys⟩ := faultsArePreciseAndQuiescent.2 c s f hf
  cases e with
  | reset => exact absurd rfl he
  | step rnd => exact hcycle rnd
  | tick => exact congrArg _ htick
  | load bytes => exact congrArg _ (hload bytes)
  | setKeys k => exact congrArg _ (hkeys k)

/-- Settles O15: RESET answers its own state, which runs; every other event answers the state itself. -/
theorem onlyResetEndsAFault : Obligations.OnlyResetEndsAFault := by
  refine fun c e s t f hf h => ⟨fun he => ?_, fun he => ?_⟩
  · subst he
    cases h
    exact ⟨rfl, rfl⟩
  · cases h.symm.trans (apply_faulted hf he)
    rfl

end Sys2Proof.Machine
end

section
/-! PROOFS. The tick (60_exceptions.md R157) and the wait for a key (44_keypad_timers.md R143, 60_exceptions.md R159,
R165). -/

namespace Sys2Proof.Machine

variable {c : Config} {rnd : Byte} {x : RegIdx} {s : State}

/-! ### TICK -/

theorem tick_run (h : s.status = .run) : tick s = { s with dt := countDown s.dt, st := countDown s.st } :=
  (tick_cases s).elim And.right fun h' => absurd h h'.1

theorem toNat_tick_dt (h : s.status = .run) : (tick s).dt.toNat = s.dt.toNat - 1 := by
  rw [tick_run h]; exact toNat_countDown s.dt

theorem toNat_tick_st (h : s.status = .run) : (tick s).st.toNat = s.st.toNat - 1 := by
  rw [tick_run h]; exact toNat_countDown s.st

/-- `m` ticks take `m` from each timer, stopping at 0 (R157). -/
theorem iterate_tick (m : Nat) (s : State) (hs : s.status = .run) :
    (tick^[m] s).dt.toNat = s.dt.toNat - m ∧ (tick^[m] s).st.toNat = s.st.toNat - m ∧
      (tick^[m] s).status = .run := by
  induction m generalizing s with
  | zero => exact ⟨rfl, rfl, hs⟩
  | succ m ih =>
    rw [Function.iterate_succ_apply]
    obtain ⟨hdt, hst, hrun⟩ := ih (tick s) ((tick_status s).trans hs)
    rw [toNat_tick_dt hs] at hdt
    rw [toNat_tick_st hs] at hst
    exact ⟨by omega, by omega, hrun⟩

/-- Settles O51: one tick by its two outcomes, `m` ticks by induction. -/
theorem tickCountsBothTimersDown : Obligations.TickCountsBothTimersDown :=
  fun s => ⟨fun hs => ⟨toNat_tick_dt hs, toNat_tick_st hs, by rw [tick_run hs]⟩, tick_faulted,
    fun m => iterate_tick m s⟩

/-! ### Block-until-key -/

/-- A pressed key with none pressed below it is the lowest one (R143). -/
theorem lowestKey_of_lowest {k : Fin 16} (hk : s.keys[k.val] = true)
    (hlow : ∀ j : Fin 16, j < k → s.keys[j.val] = false) : s.lowestKey = some k.val := by
  cases hj : s.lowestKey with
  | none => cases hk.symm.trans (lowestKey_none.1 hj k)
  | some j =>
    obtain ⟨hj16, hdown, hbelow⟩ := lowestKey_some hj
    rcases Nat.lt_trichotomy j k.val with hlt | heq | hgt
    · cases hdown.symm.trans (hlow ⟨j, hj16⟩ hlt)
    · rw [heq]
    · cases hk.symm.trans (hbelow k.val hgt)

/-- Settles O49: no lowest key, or the one that is pressed with none below it. -/
theorem blockUntilKeyTakesTheLowest : Obligations.BlockUntilKeyTakesTheLowest := by
  refine fun x s => ⟨fun hnone => execLdVxK_of_none (lowestKey_none.2 hnone), fun k hk hlow => ?_⟩
  have hexec : exec (.ldVxK x) s = .next (s.setV x (BitVec.ofNat 8 k.val)).advance :=
    execLdVxK_of_some (lowestKey_of_lowest hk hlow)
  rw [hexec]
  refine setV_answers s fun t ht => ?_
  rw [ht, BitVec.toNat_ofNat]
  omega

/-- A tick does not end the wait: it leaves the next instruction and the keys alone (R159). -/
theorem waiting_tick (h : Waiting c s) : Waiting c (tick s) := by
  obtain ⟨⟨x, hi⟩, hk⟩ := h
  refine ⟨⟨x, (nextInstr_tick c s).trans hi⟩, ?_⟩
  rw [State.lowestKey, tick_keys]
  exact hk

/-- The wait ends with the first step that sees a key down (R165). -/
theorem cycle_of_key_down (hi : nextInstr c s = some (.ldVxK x)) {j : Fin 16} (hj : s.keys[j.val] = true) :
    ∃ t, cycle c rnd s = .next t ∧ t.pc = s.pc + 2 := by
  rw [cycle_of_nextInstr hi]
  cases hk : s.lowestKey with
  | none => cases hj.symm.trans (lowestKey_none.1 hk j)
  | some k => exact ⟨_, execLdVxK_of_some hk, rfl⟩

/-- Settles O57: the wait under a step, a tick and SETKEYS. -/
theorem waitingCoreWaitsAndTicks : Obligations.WaitingCoreWaitsAndTicks := by
  intro c rnd s hw
  obtain ⟨⟨x, hi⟩, hk⟩ := hw
  obtain ⟨hs, -⟩ := nextInstr_some.1 hi
  refine ⟨(cycle_of_nextInstr hi).trans (execLdVxK_of_none hk), waiting_tick ⟨⟨x, hi⟩, hk⟩, toNat_tick_dt hs,
    toNat_tick_st hs, fun k ⟨j, hj⟩ => ?_⟩
  rw [setKeys_run k hs]
  have hi' : nextInstr c { s with keys := k } = some (.ldVxK x) := (nextInstr_withHidden (b := s.st)).trans hi
  exact cycle_of_key_down hi' hj

end Sys2Proof.Machine
end

section
/-! PROOFS. Return on both sides of its guard (41_flow.md R102), the flag in `VF` itself (42_alu.md R110) and the
address of a digit's glyph (43_index_memory.md R132). -/

namespace Sys2Proof.Machine

/-- Settles O28: the two sides of the guard `0 < sp`. -/
theorem returnPopsTheSavedAddress : Obligations.ReturnPopsTheSavedAddress :=
  fun _ => ⟨execRet_of_empty, fun _ hk => ⟨_, execRet_of_saved hk, rfl, rfl, fun _ => rfl, fun _ => rfl, rfl,
    ⟨rfl, rfl⟩, fun _ => rfl, fun _ _ => rfl, ⟨rfl, rfl⟩, rfl⟩⟩

/-- A result and a flag written to `VF` leave the flag (R110, decision D8). -/
theorem setFlagged_flagReg_answers (s : State) (b : Byte) (f : Bool) :
    ∃ t, (.next (s.setFlagged flagReg b f).advance : Result) = .next t ∧ t.getV flagReg = flagByte f :=
  ⟨_, rfl, State.getV_setV_same ..⟩

/-- Settles O39: the flag is written after the result in all five. -/
theorem flagSurvivesInVF : Obligations.FlagSurvivesInVF :=
  fun _ s _ _ => ⟨setFlagged_flagReg_answers s _ _, setFlagged_flagReg_answers s _ _,
    setFlagged_flagReg_answers s _ _, setFlagged_flagReg_answers s _ _, setFlagged_flagReg_answers s _ _⟩

/-- Settles O42: five times a byte does not wrap, and RESET leaves the font from address 0. -/
theorem digitSpriteAddress : Obligations.DigitSpriteAddress := by
  intro x s
  obtain ⟨t, e, hi, hpc, hframe, hmem⟩ := setI_answers s (toNat_glyphAddr (s.getV x))
  refine ⟨t, e, hi, hpc, hframe, hmem, fun c d k hd => ?_⟩
  rw [hi, hd]
  exact readByte_resetWith_font c d k

end Sys2Proof.Machine
end
